-- ==== Sys2Proof/Word.lean ====
section
/-! DEFINITION. The word types of the block, 00_scope.md R6 and R7: every value is an unsigned
integer of 1, 8, 16, 32 or W_T bits. -/

namespace Sys2Proof

/-- A snapshot, a channel, a sample, a register address or a payload byte (PIN_W = 8). -/
abbrev Byte := BitVec 8

/-- A command word of the command port (30_encoding.md R96). -/
abbrev Word := BitVec 32

/-- A time or a duration in ticks of 1 ns, W_T = 64 bits (00_scope.md R6, decision D12). -/
abbrev Time := BitVec 64

/-- An endpoint id as the command word and the result port carry it (30_encoding.md R98, R101). -/
abbrev EpId := BitVec 16

/-- A button, numbered by its bit position (00_scope.md R6 N_BTN, 30_encoding.md R105). -/
abbrev Button := Fin 5

end Sys2Proof
end

