-- ==== Sys2Proof/Config.lean ====
section
/-! DEFINITION. What an implementation fixes (00_scope.md R6), the inputs the environment chooses
(10_state.md R21), and the free values. -/

namespace Sys2Proof

/-! ## Inputs of a run -/

/-- The transport's answer to a write (20_memory.md R63). -/
inductive WriteAns where
  | ok
  | fail
  deriving DecidableEq, Repr, Inhabited

/-- The transport's answer to the one-byte button read (20_memory.md R63): any byte, or failure. -/
inductive ReadAns where
  | ok (v : Byte)
  | fail
  deriving DecidableEq, Repr, Inhabited

/-- Which agent takes the next step, with the environment's answers to the transactions of that
step (10_state.md R21, 60_exceptions.md R226). -/
inductive Turn where
  /-- The host attempts its next operation (60_exceptions.md R227). -/
  | host
  /-- The LED agent attempts LEDSTEP (40_encoder.md R130). -/
  | led (ans : WriteAns)
  /-- The poll agent attempts POLLSTEP (41_detector.md R163). -/
  | poll (ans : ReadAns)
  /-- CONFIGURE with its two options, each absent or given (70_reset_and_hazards.md R244). -/
  | configure (gamma : Option (List Byte)) (interval : Option Time)
  /-- INIT with the answers to its three setup writes (70_reset_and_hazards.md R246). -/
  | init (a0 a1 a2 : WriteAns)
  /-- Reset: power-on, or discarding and constructing the block anew (70_reset_and_hazards.md R240). -/
  | reset
  deriving DecidableEq, Repr, Inhabited

/-- One input of a run: the level of the time input NOW (10_state.md R40) and the turn. -/
structure Input where
  now  : Time
  turn : Turn
  deriving DecidableEq, Repr, Inhabited

/-! ## Parameters -/

/-- The parameters of 00_scope.md R6 that the spec leaves OPEN. They are an argument of every
rule: the state carries them and no step changes them (log entry 3). -/
structure Params where
  /-- CLK_BIT. -/
  clkBit       : Fin 8
  /-- DAT_BIT, different from CLK_BIT. -/
  datBit       : Fin 8
  /-- GAMMA_DEFAULT. -/
  gammaDefault : Vector Byte 256
  /-- EP_CAP, at least 1. -/
  epCap        : Nat
  /-- REG_IN. -/
  regIn        : Byte
  /-- REG_OUT. -/
  regOut       : Byte
  /-- REG_POL. -/
  regPol       : Byte
  /-- REG_CFG. -/
  regCfg       : Byte
  /-- BUS_ADDR. The spec gives no width; eight bits is a DESIGN CHOICE (log entry 4). -/
  busAddr      : Byte
  /-- DIR_MASK. -/
  dirMask      : Byte
  /-- POL_VAL. -/
  polVal       : Byte
  /-- BENCH. -/
  bench        : Bool
  /-- LABEL(b). No rule reads a label (00_scope.md R6, decision D27). -/
  label        : Vector String 5
  deriving DecidableEq, Repr

namespace Config

/-! ## Constants the spec fixes (00_scope.md R6) -/

/-- MARKER (30_encoding.md R94, 90_conflicts.md C1). -/
def marker : Byte := 0xEF#8

/-- GAMMA_LEN. -/
def gammaLen : Nat := 256

/-- BRT_RESET. -/
def brtReset : Byte := 255#8

/-- OUT_INIT. -/
def outInit : Byte := 0x00#8

/-- N_EP_MAX (decision D26). -/
def nEpMax : Nat := 65536

/-- TICK_HZ (decision D12). -/
def tickHz : Nat := 1000000000

/-- The default poll interval, 50 ms in ticks (10_state.md R34). -/
def pollIntervalDefault : Time := BitVec.ofNat 64 (50 * tickHz / 1000)

/-! ## Free values: nothing in Lean can evaluate one -/

/-- The inputs of a run beyond those queued in the state, by step number: any environment at all
(log entry 2). -/
opaque freeInput : Nat → Input

/-- GAMMA_DEFAULT of the block that `State.reset` describes: the source gives no entry of it
(91_not_in_source.md N5, log entry 5). -/
opaque gammaDefault : Vector Byte 256

/-- EP_CAP less one of the block that `State.reset` describes (decision D15, log entry 5). -/
opaque epCapLessOne : Nat

/-- What a read of GAMMA would give while GAMMA holds no value; no run reads it then
(70_reset_and_hazards.md R241, log entry 10). -/
opaque unsetGamma : Byte → Byte

/-- What a read of T0 would give while it holds no value; no run reads it then
(10_state.md R29, log entry 10). -/
opaque unsetT0 : Button → Time

/-- The parameters of the block that `State.reset` describes: the spec's listed defaults (PRESUMED,
log entry 4), BENCH true (DESIGN CHOICE, log entry 6), and free values where the spec lists no
default (log entry 5). -/
def params : Params where
  clkBit       := 6
  datBit       := 7
  gammaDefault := gammaDefault
  epCap        := epCapLessOne + 1
  regIn        := 0x00#8
  regOut       := 0x01#8
  regPol       := 0x02#8
  regCfg       := 0x03#8
  busAddr      := 0x3F#8
  dirMask      := 0x1F#8
  polVal       := 0x00#8
  bench        := true
  label        := #v["A", "B", "C", "D", "E"]

end Config

end Sys2Proof
end

