-- ==== Sys2Proof/Syntax.lean ====
section
/-! DEFINITION. The eight operations of 30_encoding.md R97, one constructor per row of
spec/opcode_table.json, with the operands of R98. -/

namespace Sys2Proof

inductive Instr where
  /-- SETCOLOR r, g, b (40_encoder.md R132). -/
  | setcolor (r g b : Byte)
  /-- SETBRT l (40_encoder.md R133). -/
  | setbrt (l : Byte)
  /-- SUBP n (41_detector.md R171): the three-bit field `n`, legal values 0 to 4. -/
  | subp (n : BitVec 3)
  /-- SUBR n (41_detector.md R172): the three-bit field `n`, legal values 0 to 4. -/
  | subr (n : BitVec 3)
  /-- HALT (40_encoder.md R134). -/
  | halt
  /-- RECV e (41_detector.md R173). -/
  | recv (e : EpId)
  /-- ENCB b, a bench operation (40_encoder.md R120). -/
  | encb (b : Byte)
  /-- SAMPLE v, a bench operation (41_detector.md R164). -/
  | sample (v : Byte)
  deriving DecidableEq, Repr

end Sys2Proof
end

