-- ==== Sys2Proof/Decode.lean ====
section
/-! DEFINITION. The decoder of the command word (30_encoding.md R96 to R100, R109), total on every
word and rejecting by name, and the encoder written from the same table. -/

namespace Sys2Proof

/-- Why a word is illegal (30_encoding.md R100). Every reason gives the one error IllegalCommand. -/
inductive DecodeError where
  /-- OP is 0x00, 0x07 to 0x0F or 0x12 to 0xFF. -/
  | unassignedOp (op : Byte)
  /-- OP names an operation but a field its row shows as 0 is not 0. -/
  | reservedNotZero
  /-- SUBP or SUBR of button 5, 6 or 7. -/
  | buttonAboveFour (n : BitVec 3)
  /-- ENCB or SAMPLE while BENCH is false. -/
  | benchDisabled
  deriving DecidableEq, Repr

/-! Fields of format C (30_encoding.md R96). -/

def fieldOp (cw : Word) : Byte := cw.extractLsb' 24 8
def fieldA (cw : Word) : Byte := cw.extractLsb' 16 8
def fieldB (cw : Word) : Byte := cw.extractLsb' 8 8
def fieldC (cw : Word) : Byte := cw.extractLsb' 0 8

/-- Bits 15..0, the endpoint id of RECV (30_encoding.md R98). -/
def fieldE (cw : Word) : EpId := cw.extractLsb' 0 16

/-- Bits 2..0, the button number of SUBP and SUBR (30_encoding.md R98). -/
def fieldN (cw : Word) : BitVec 3 := cw.extractLsb' 0 3

/-- Bits 7..3, which SUBP and SUBR require to be 0 (mask 0xFFFFFFF8). -/
def fieldCHi (cw : Word) : BitVec 5 := cw.extractLsb' 3 5

/-- A row without operands in A and B: both must be 0. -/
def decodeC (cw : Word) (f : Byte → Instr) : Except DecodeError Instr :=
  if fieldA cw = 0#8 ∧ fieldB cw = 0#8 then .ok (f (fieldC cw)) else .error .reservedNotZero

/-- The rows SUBP and SUBR: mask 0xFFFFFFF8, then the button number is at most 4. -/
def decodeN (cw : Word) (f : BitVec 3 → Instr) : Except DecodeError Instr :=
  if fieldA cw = 0#8 ∧ fieldB cw = 0#8 ∧ fieldCHi cw = 0#5 then
    if fieldN cw ≤ 4#3 then .ok (f (fieldN cw)) else .error (.buttonAboveFour (fieldN cw))
  else .error .reservedNotZero

/-- The row HALT: every field but OP is 0. -/
def decodeHalt (cw : Word) : Except DecodeError Instr :=
  if fieldA cw = 0#8 ∧ fieldB cw = 0#8 ∧ fieldC cw = 0#8 then .ok .halt
  else .error .reservedNotZero

/-- The row RECV: A is 0, the id takes B and C. -/
def decodeE (cw : Word) : Except DecodeError Instr :=
  if fieldA cw = 0#8 then .ok (.recv (fieldE cw)) else .error .reservedNotZero

/-- A bench row: accepted only when BENCH is true (30_encoding.md R99). -/
def decodeBench (bench : Bool) (cw : Word) (f : Byte → Instr) : Except DecodeError Instr :=
  if bench then decodeC cw f else .error .benchDisabled

/-- The total decoder of 30_encoding.md R109: look OP up in the map of R97, check the row's mask,
value condition and BENCH, return the operation with its operands. -/
def decode (bench : Bool) (cw : Word) : Except DecodeError Instr :=
  if fieldOp cw = 0x01#8 then .ok (.setcolor (fieldA cw) (fieldB cw) (fieldC cw))
  else if fieldOp cw = 0x02#8 then decodeC cw .setbrt
  else if fieldOp cw = 0x03#8 then decodeN cw .subp
  else if fieldOp cw = 0x04#8 then decodeN cw .subr
  else if fieldOp cw = 0x05#8 then decodeHalt cw
  else if fieldOp cw = 0x06#8 then decodeE cw
  else if fieldOp cw = 0x10#8 then decodeBench bench cw .encb
  else if fieldOp cw = 0x11#8 then decodeBench bench cw .sample
  else .error (.unassignedOp (fieldOp cw))

/-- The command word of an operation (30_encoding.md R97, R98). -/
def encode : Instr → Word
  | .setcolor r g b => 0x01#8 ++ r ++ g ++ b
  | .setbrt l => 0x02#8 ++ 0#8 ++ 0#8 ++ l
  | .subp n => 0x03#8 ++ 0#8 ++ 0#8 ++ 0#5 ++ n
  | .subr n => 0x04#8 ++ 0#8 ++ 0#8 ++ 0#5 ++ n
  | .halt => 0x05#8 ++ 0#8 ++ 0#8 ++ 0#8
  | .recv e => 0x06#8 ++ 0#8 ++ e
  | .encb b => 0x10#8 ++ 0#8 ++ 0#8 ++ b
  | .sample v => 0x11#8 ++ 0#8 ++ 0#8 ++ v

/-- The command word that the table's numbering of bits spells: a 32-bit value, bit 0 its least
significant bit (20_memory.md R70), every bit from `nbits` up being 0. -/
def tableWord (nbits w : Nat) : Word := BitVec.ofNat 32 (w % 2 ^ nbits)

/-- What the decoder reads from a word given in the numbering of spec/opcode_table.json, for the
parameters of `State.reset`; none where it refuses, or where the word is longer than the one
command length of 30_encoding.md R109. -/
def decodeTableWord (nbits w : Nat) : Option Instr :=
  if w % 2 ^ nbits < 2 ^ 32 then
    match decode Config.params.bench (tableWord nbits w) with
    | .ok i => some i
    | .error _ => none
  else none

end Sys2Proof
end

