-- ==== Sys2Proof/Machine/State.lean ====
section
/-! DEFINITION. The state of the block, 10_state.md R20 to R45, and what the model keeps beside it. -/

namespace Sys2Proof.Machine

/-- STATUS, a 3-bit register of five values (10_state.md R36). Its code is `Status.code`. -/
inductive Status where
  /-- 0 RESET: nothing configured. -/
  | reset
  /-- 1 CONFIGURED: CONFIGURE accepted, no hardware touched yet. -/
  | configured
  /-- 2 RUNNING: the setup writes succeeded, both agents are started. -/
  | running
  /-- 3 SETUP_FAILED: a setup write failed. -/
  | setupFailed
  /-- 4 FAULTED: a steady-state transport fault. -/
  | faulted
  deriving DecidableEq, Repr

/-- The info of a TransportFault (60_exceptions.md R200). -/
inductive Direction where
  /-- WRITE: the LED write failed. -/
  | write
  /-- READ: the button read failed. -/
  | read
  deriving DecidableEq, Repr

/-- CAUSE (10_state.md R37, R38): NONE, or a fault's code with its info. -/
inductive Cause where
  /-- NONE, code 0. -/
  | none
  /-- SetupError, code 2: the index of the failed setup write. -/
  | setup (index : Fin 3)
  /-- TransportFault, code 3. -/
  | transport (d : Direction)
  deriving DecidableEq, Repr

/-- MBOX, the one-slot mailbox (10_state.md R26). -/
inductive Mbox where
  | empty
  | full (r g b : Byte)
  deriving DecidableEq, Repr

/-- The kind of an endpoint (10_state.md R31). -/
inductive Kind where
  | press
  | release
  deriving DecidableEq, Repr

/-- A notification (10_state.md R31, 30_encoding.md R107): the unit value for a press, a duration in
ticks for a release. -/
inductive Payload where
  | unit
  | duration (d : Time)
  deriving DecidableEq, Repr

/-- A record EP[i] (10_state.md R31): `q` is oldest first. -/
structure Endpoint where
  kind : Kind
  btn  : Button
  q    : List Payload
  deriving DecidableEq, Repr

/-- The errors of 60_exceptions.md R200 with their info. Their codes are `Err.code`. -/
inductive Err where
  /-- Code 1; the only option the spec checks is `gamma_table` (70_reset_and_hazards.md R244). -/
  | configurationError (option : String)
  /-- Code 2; the index of the failed setup write. -/
  | setupError (index : Fin 3)
  /-- Code 3. No operation returns it: it is stored in CAUSE. -/
  | transportFault (d : Direction)
  /-- Code 4; the command word. -/
  | illegalCommand (word : Word)
  /-- Code 5; the pair (STATUS, CAUSE). -/
  | notRunning (status : Status) (cause : Cause)
  /-- Code 6. -/
  | registryFull
  deriving DecidableEq, Repr

/-- A result on the result port (30_encoding.md R101). -/
inductive Result where
  | ok
  | okEp (id : EpId)
  | okPress
  | okRelease (d : Time)
  | err (e : Err)
  deriving DecidableEq, Repr

/-- What CONFIGURE or INIT returns to the caller of boot (60_exceptions.md R201 to R203). -/
inductive BootReturn where
  | done
  | failed (e : Err)
  deriving DecidableEq, Repr

/-- The outcome of a transport transaction (20_memory.md R62). -/
inductive XferOutcome where
  | ok (rd : List Byte)
  | fail
  deriving DecidableEq, Repr

/-- One transaction `Xfer(w, n)` addressed to BUS_ADDR (20_memory.md R62), with its outcome. -/
structure Xfer where
  bus     : Byte
  w       : List Byte
  n       : Nat
  outcome : XferOutcome
  deriving DecidableEq, Repr

/-- The state: the registers of 10_state.md R20; the host's program and its index (R27); the
parameters (00_scope.md R6); the inputs and the ports of the model. -/
structure State where
  /-- STATUS (R36). -/
  status       : Status
  /-- CAUSE (R37). -/
  cause        : Cause
  /-- SNAP (R23). -/
  snap         : Byte
  /-- FRAME (R24). -/
  frame        : List Byte
  /-- BRT (R25). -/
  brt          : Byte
  /-- MBOX (R26). -/
  mbox         : Mbox
  /-- PRESSED[0..4] (R28). -/
  pressed      : Vector Bool 5
  /-- T0[0..4] (R29): no value while the button is not pressed. -/
  t0           : Vector (Option Time) 5
  /-- PSUB[0..4] (R30), oldest first. -/
  psub         : Vector (List Nat) 5
  /-- RSUB[0..4] (R30), oldest first. -/
  rsub         : Vector (List Nat) 5
  /-- EP[0..NEXT_EP-1] (R31), by position. -/
  ep           : List Endpoint
  /-- NEXT_EP (R32). -/
  nextEp       : Nat
  /-- GAMMA[0..255] (R33): no value until CONFIGURE. -/
  gamma        : Option (Vector Byte 256)
  /-- POLL_INTERVAL (R34): no value until CONFIGURE. -/
  pollInterval : Option Time
  /-- LAST_POLL (R39). -/
  lastPoll     : Option Time
  /-- The host's program (R27). -/
  program      : List Word
  /-- The program index `pi` (R27). -/
  pi           : Nat
  /-- NOW (R40): the level of the time input during the current step. -/
  now          : Time
  /-- The parameters of 00_scope.md R6. The model's own field (log entry 3). -/
  params       : Params
  /-- The queued inputs. The model's own field (log entry 2). -/
  env          : List Input
  /-- How many steps have been taken; free inputs are drawn by it. The model's own field (log entry 2). -/
  steps        : Nat
  /-- What the result port has answered, oldest first. The model's own field (log entry 7). -/
  results      : List Result
  /-- What boot has returned, oldest first. The model's own field (log entry 7). -/
  bootReturns  : List BootReturn
  /-- The transactions issued, oldest first. The model's own field (log entry 7). -/
  xfers        : List Xfer
  deriving DecidableEq, Repr

/-- Why the machine stops. Both stand for states that no run reaches: `Sys2Proof.Safety.Inv`
excludes them, so a stop there is safe (log entry 8). -/
inductive Fault where
  /-- RECV of an id below NEXT_EP that the endpoint file does not hold. Raised by RECV; safe. -/
  | endpointMissing (e : EpId)
  /-- RECV of a unit payload from a RELEASE endpoint. Raised by RECV; safe. -/
  | payloadMismatch (e : EpId)
  deriving DecidableEq, Repr

/-- Why a step has no meaning in the model. -/
inductive Refusal where
  /-- An operation that has no meaning yet. Raised by no arm of `exec`; safe. -/
  | notModelled (mnemonic : String)
  /-- CONFIGURE while STATUS is not RESET, which the spec calls "outside the model"
  (70_reset_and_hazards.md R244). Raised by a boot turn, by no operation; safe (log entry 9). -/
  | configureOutsideReset
  /-- INIT while STATUS is not CONFIGURED, outside the model by 93_implementation_defined.md part 2.
  Raised by a boot turn, by no operation; safe (log entry 9). -/
  | initOutsideConfigured
  deriving DecidableEq, Repr

/-- The state after reset (10_state.md R45). The fields below the program index are the model's:
their values are named in log entries 2 to 7. -/
def State.reset : State where
  status       := .reset
  cause        := .none
  snap         := 0x00#8
  frame        := []
  brt          := Config.brtReset
  mbox         := .empty
  pressed      := #v[false, false, false, false, false]
  t0           := #v[none, none, none, none, none]
  psub         := #v[[], [], [], [], []]
  rsub         := #v[[], [], [], [], []]
  ep           := []
  nextEp       := 0
  gamma        := none
  pollInterval := none
  lastPoll     := none
  program      := []
  pi           := 0
  now          := 0#64
  params       := Config.params
  env          := []
  steps        := 0
  results      := []
  bootReturns  := []
  xfers        := []

end Sys2Proof.Machine
end

