-- ==== Sys2Proof/Machine/Flags.lean ====
section
/-! DEFINITION. The conditions of 10_state.md R41, each a function of the state, and the numeric
codes of STATUS (R36), CAUSE (R38) and the errors (60_exceptions.md R200). -/

namespace Sys2Proof.Machine

/-- pressed(b). -/
def State.isPressed (s : State) (b : Button) : Bool := s.pressed[b]

/-- mbox_full. -/
def State.mboxFull (s : State) : Bool :=
  match s.mbox with
  | .empty => false
  | .full _ _ _ => true

/-- ep_full of an endpoint record: its queue has EP_CAP payloads or more. -/
def Endpoint.isFull (cap : Nat) (x : Endpoint) : Bool := decide (cap ≤ x.q.length)

/-- ep_full(i). -/
def State.epFull (s : State) (i : Nat) : Bool :=
  match s.ep[i]? with
  | some x => x.isFull s.params.epCap
  | none => false

/-- ep_nonempty(i). -/
def State.epNonempty (s : State) (i : Nat) : Bool :=
  match s.ep[i]? with
  | some x => decide (0 < x.q.length)
  | none => false

/-- running. -/
def State.isRunning (s : State) : Bool := decide (s.status = .running)

/-- The value of STATUS (10_state.md R36). -/
def Status.code : Status → BitVec 3
  | .reset => 0#3
  | .configured => 1#3
  | .running => 2#3
  | .setupFailed => 3#3
  | .faulted => 4#3

/-- The code field of CAUSE (10_state.md R38). -/
def Cause.code : Cause → BitVec 3
  | .none => 0#3
  | .setup _ => 2#3
  | .transport _ => 3#3

/-- The code of an error (60_exceptions.md R200). -/
def Err.code : Err → Nat
  | .configurationError _ => 1
  | .setupError _ => 2
  | .transportFault _ => 3
  | .illegalCommand _ => 4
  | .notRunning _ _ => 5
  | .registryFull => 6

/-- The two kinds of error (60_exceptions.md R201): a fault is stored in CAUSE, a refusal is not. -/
def Err.isFault : Err → Bool
  | .configurationError _ => false
  | .setupError _ => true
  | .transportFault _ => true
  | .illegalCommand _ => false
  | .notRunning _ _ => false
  | .registryFull => false

/-- The fault that a stored CAUSE records (10_state.md R37); none while CAUSE is NONE. -/
def Cause.err? : Cause → Option Err
  | .none => Option.none
  | .setup i => some (.setupError i)
  | .transport d => some (.transportFault d)

end Sys2Proof.Machine
end

