-- ==== Sys2Proof/Machine/Operands.lean ====
section
/-! DEFINITION. The operand forms of 30_encoding.md R98 and the formats R105 and R106: a channel, a
brightness level, a byte and a sample are used as they stand; a button number, an endpoint id and a
sample bit are read as follows. -/

namespace Sys2Proof.Machine

/-- The five buttons in ascending order, the order of evaluation (41_detector.md R166, decision D10). -/
def buttons : List Button := [0, 1, 2, 3, 4]

/-- The button that the three-bit operand of SUBP and SUBR names: none for 5, 6 and 7
(30_encoding.md R98, R100). -/
def buttonOf (n : BitVec 3) : Option Button :=
  if h : n.toNat < 5 then some ⟨n.toNat, h⟩ else none

/-- The endpoint id that RECV's 16-bit operand names (30_encoding.md R98). -/
def epIndex (e : EpId) : Nat := e.toNat

/-- A handle as the result port carries it (30_encoding.md R101). -/
def handleOf (id : Nat) : EpId := BitVec.ofNat 16 id

/-- Bit b of a sample: the observed state of button b (30_encoding.md R105, 41_detector.md R160). -/
def sampleBit (v : Byte) (b : Button) : Bool := v.getLsbD b.val

end Sys2Proof.Machine
end

