-- ==== Sys2Proof/WellFormed.lean ====
section
/-! DEFINITION. What the spec asks of an operation's operands (30_encoding.md R97, R98), of the
class of operations a block accepts (R99), and of the parameters (00_scope.md R6). -/

namespace Sys2Proof

/-- Every operand is one that a legal word can carry: the button number of SUBP and SUBR is at
most 4 (30_encoding.md R97). -/
def Instr.wf : Instr → Bool
  | .setcolor _ _ _ => true
  | .setbrt _ => true
  | .subp n => decide (n ≤ 4#3)
  | .subr n => decide (n ≤ 4#3)
  | .halt => true
  | .recv _ => true
  | .encb _ => true
  | .sample _ => true

/-- The class "bench" of 30_encoding.md R97: ENCB and SAMPLE. -/
def Instr.isBench : Instr → Bool
  | .setcolor _ _ _ => false
  | .setbrt _ => false
  | .subp _ => false
  | .subr _ => false
  | .halt => false
  | .recv _ => false
  | .encb _ => true
  | .sample _ => true

/-- A block with parameter BENCH = `bench` accepts the operation: its operands are legal, and a
bench operation asks for BENCH (30_encoding.md R99, R100). -/
def Instr.accepted (bench : Bool) (i : Instr) : Bool :=
  i.wf && (!i.isBench || bench)

/-- The admissible values of the OPEN parameters (00_scope.md R6): clock and data differ, the four
register addresses are pairwise different, an endpoint has room for at least one payload. -/
def Params.admissible (p : Params) : Bool :=
  decide (p.clkBit ≠ p.datBit)
    && decide (p.regIn ≠ p.regOut) && decide (p.regIn ≠ p.regPol) && decide (p.regIn ≠ p.regCfg)
    && decide (p.regOut ≠ p.regPol) && decide (p.regOut ≠ p.regCfg) && decide (p.regPol ≠ p.regCfg)
    && decide (1 ≤ p.epCap)

end Sys2Proof
end

