-- ==== Sys2Proof/Machine/Ops.lean ====
section
/-! DEFINITION. The shared operations over the state: bits of a snapshot, the result port, the order
of checks, the transport, fault entry and the way back, the endpoint queues, the gamma table. -/

namespace Sys2Proof.Machine

/-! ## Bits of a snapshot (00_scope.md R7, R8) -/

/-- The mask `1 << i`, CM for CLK_BIT and DM for DAT_BIT (00_scope.md R6). -/
def bitMask (i : Fin 8) : Byte := 1#8 <<< i.val

/-- `setbit(v, i, b)`: bit i replaced by `b`, every other bit unchanged (00_scope.md R8). -/
def setBit (v : Byte) (i : Fin 8) (b : Bool) : Byte :=
  if b then v ||| bitMask i else v &&& ~~~ bitMask i

/-- The mask of the clock and data bits, `CM | DM`. -/
def pinMask (p : Params) : Byte := bitMask p.clkBit ||| bitMask p.datBit

/-! ## The result port, holds, and the order of checks -/

/-- An operation completes with result `r`: the port answers and the program index advances by 1
(30_encoding.md R101, 10_state.md R27). -/
def complete (s : State) (r : Result) : State :=
  { s with results := s.results ++ [r], pi := s.pi + 1 }

/-- `hold`: the operation has no step and leaves no trace (00_scope.md R8, 60_exceptions.md R232). -/
def hold (s : State) : Host.Outcome State Fault Refusal := .next s

/-- The operation is refused with IllegalCommand and the command word (60_exceptions.md R205). -/
def illegal (cw : Word) (s : State) : State := complete s (.err (.illegalCommand cw))

/-- The second check of every operation (60_exceptions.md R206, R212): outside RUNNING it returns
NotRunning with (STATUS, CAUSE) and changes no state. -/
def whenRunning (s : State) (k : Host.Outcome State Fault Refusal) : Host.Outcome State Fault Refusal :=
  if s.status = .running then k else .next (complete s (.err (.notRunning s.status s.cause)))

/-- The first check of a bench operation (30_encoding.md R99, 60_exceptions.md R212): with BENCH
false its word `cw` is illegal. -/
def whenBench (cw : Word) (s : State) (k : Host.Outcome State Fault Refusal) :
    Host.Outcome State Fault Refusal :=
  if s.params.bench then k else .next (illegal cw s)

/-! ## Fault entry and the way back -/

/-- STATUS after a fault: SETUP_FAILED for code 2, else FAULTED (60_exceptions.md R213). -/
def faultStatus : Cause → Status
  | .setup _ => .setupFailed
  | .transport _ => .faulted
  | .none => .faulted

/-- Fault entry (60_exceptions.md R213): STATUS and CAUSE are written over whatever the step had
already written; nothing is saved and control goes nowhere. -/
def faultEntry (c : Cause) (s : State) : State :=
  { s with status := faultStatus c, cause := c }

/-- The only way out of a fault, reset (60_exceptions.md R216, 70_reset_and_hazards.md R240): every
register of 10_state.md R20 at its reset value and the program index at 0. The parameters, the
program, the inputs and what the ports have already shown stay. -/
def resetBlock (s : State) : State :=
  { State.reset with
    program := s.program, now := s.now, params := s.params, env := s.env, steps := s.steps,
    results := s.results, bootReturns := s.bootReturns, xfers := s.xfers }

/-! ## The transport port (20_memory.md R62 to R66) -/

/-- One transaction `Xfer(w, n)` addressed to BUS_ADDR with the outcome the environment gave it. -/
def xfer (w : List Byte) (n : Nat) (o : XferOutcome) (s : State) : State :=
  { s with xfers := s.xfers ++ [⟨s.params.busAddr, w, n, o⟩] }

/-- `MemWrite(addr, len(v), v)` (20_memory.md R65): the step goes on with `k` when the transport
answers ok and with `raise` when it fails. -/
def memWrite (addr : Byte) (v : List Byte) (ans : WriteAns) (raise k : State → State) (s : State) :
    State :=
  match ans with
  | .ok => k (xfer (addr :: v) 0 (.ok []) s)
  | .fail => raise (xfer (addr :: v) 0 .fail s)

/-- `MemRead(addr, 1)` (20_memory.md R64). -/
def memRead (addr : Byte) (ans : ReadAns) (raise : State → State) (k : Byte → State → State)
    (s : State) : State :=
  match ans with
  | .ok v => k v (xfer [addr] 1 (.ok [v]) s)
  | .fail => raise (xfer [addr] 1 .fail s)

/-! ## The gamma space (20_memory.md R67) -/

/-- GAMMA[i]. While the table holds no value, which no run reads, a free value (log entry 10). -/
def gammaAt (g : Option (Vector Byte 256)) (i : Byte) : Byte :=
  match g with
  | some t => t[i.toNat]'i.isLt
  | none => Config.unsetGamma i

/-! ## The endpoint space (20_memory.md R69) and the mailbox deposit (R81) -/

/-- `try_send(e, p)` on the endpoint file (41_detector.md R168): append if there is room, else drop
silently. An id the file does not hold, which no run meets, has nothing to append to. -/
def trySend (cap : Nat) (p : Payload) (ep : List Endpoint) (e : Nat) : List Endpoint :=
  match ep[e]? with
  | some x => if x.isFull cap then ep else ep.set e { x with q := x.q ++ [p] }
  | none => ep

/-- `DELIVER(L, p)` (41_detector.md R169): every subscriber of the list, in registration order. -/
def deliver (cap : Nat) (p : Payload) (l : List Nat) (ep : List Endpoint) : List Endpoint :=
  l.foldl (trySend cap p) ep

/-- A new endpoint at the end of the file; under the invariant its id is NEXT_EP
(41_detector.md R171). -/
def newEndpoint (k : Kind) (b : Button) (s : State) : State :=
  { s with ep := s.ep ++ [⟨k, b, []⟩], nextEp := s.nextEp + 1 }

/-- The mailbox deposit (20_memory.md R81): hold while FULL, else deposit and answer ok
(40_encoder.md R132). -/
def deposit (r g b : Byte) (s : State) : Host.Outcome State Fault Refusal :=
  match s.mbox with
  | .full _ _ _ => hold s
  | .empty => .next (complete { s with mbox := .full r g b } .ok)

/-! ## The command port (30_encoding.md R96) and the inputs -/

/-- The command word the host presents next: word `pi` of its program (10_state.md R27). -/
def presentedWord (s : State) : Option Word := s.program[s.pi]?

/-- The input of the coming step: the first one queued, else a free value (log entry 2). -/
def nextInput (s : State) : Input :=
  match s.env with
  | x :: _ => x
  | [] => Config.freeInput s.steps

/-- The step takes its input: the level of NOW is set and the queue moves on. -/
def takeInput (s : State) : State :=
  { s with now := (nextInput s).now, env := s.env.tail, steps := s.steps + 1 }

/-- The program with `cw` as word `pi`: words before it stay (zero words fill a gap) and words
after it stay. -/
def placeWord (cw : Word) (pi : Nat) (program : List Word) : List Word :=
  (program ++ List.replicate (pi + 1 - program.length) 0#32).set pi cw

/-- The queue of inputs with a host turn first, at the time the input NOW shows; unchanged where a
host turn is first already. -/
def hostTurnFirst (now : Time) (env : List Input) : List Input :=
  match env with
  | ⟨_, .host⟩ :: _ => env
  | _ => ⟨now, .host⟩ :: env

end Sys2Proof.Machine
end

