-- ==== Sys2Proof/Machine/Detector.lean ====
section
/-! DEFINITION. Unit DET (41_detector.md): the edge rule, the registry, and the operations SUBP,
SUBR, RECV and SAMPLE. -/

namespace Sys2Proof.Machine

/-! ## The evaluation of a sample -/

/-- T0[b] as a release edge reads it; no run reads one that holds no value (log entry 10). -/
def t0At (s : State) (b : Button) : Time := (s.t0[b]).getD (Config.unsetT0 b)

/-- EVALBTN(b, x, now) (41_detector.md R161): state first, then delivery. -/
def evalBtn (v : Byte) (now : Time) (s : State) (b : Button) : State :=
  match sampleBit v b, s.isPressed b with
  | true, false =>
    { s with
      pressed := s.pressed.set b true, t0 := s.t0.set b (some now),
      ep := deliver s.params.epCap .unit s.psub[b] s.ep }
  | false, true =>
    { s with
      pressed := s.pressed.set b false, t0 := s.t0.set b none,
      ep := deliver s.params.epCap (.duration (now - t0At s b)) s.rsub[b] s.ep }
  | true, true => s
  | false, false => s

/-- EVAL(v, now) (41_detector.md R166): the five buttons in ascending order with one sample and one
time, then LAST_POLL. -/
def eval (v : Byte) (now : Time) (s : State) : State :=
  { buttons.foldl (evalBtn v now) s with lastPoll := some now }

/-! ## Operations -/

/-- The shared body of SUBP and SUBR after the operand check: NotRunning, RegistryFull, else a new
endpoint whose id `append` adds to the registry (41_detector.md R171, R172). -/
def subscribe (k : Kind) (b : Button) (append : State → State) (s : State) :
    Host.Outcome State Fault Refusal :=
  whenRunning s
    (if s.nextEp = Config.nEpMax then .next (complete s (.err .registryFull))
     else .next (complete (append (newEndpoint k b s)) (.okEp (handleOf s.nextEp))))

/-- SUBP n (41_detector.md R171). A button above 4 is an illegal word (30_encoding.md R100). -/
def execSubp (n : BitVec 3) (s : State) : Host.Outcome State Fault Refusal :=
  match buttonOf n with
  | none => .next (illegal (encode (.subp n)) s)
  | some b =>
    subscribe .press b (fun t => { t with psub := t.psub.set b (t.psub[b] ++ [s.nextEp]) }) s

/-- SUBR n (41_detector.md R172). -/
def execSubr (n : BitVec 3) (s : State) : Host.Outcome State Fault Refusal :=
  match buttonOf n with
  | none => .next (illegal (encode (.subr n)) s)
  | some b =>
    subscribe .release b (fun t => { t with rsub := t.rsub.set b (t.rsub[b] ++ [s.nextEp]) }) s

/-- What RECV answers with the payload it took (41_detector.md R173). A unit payload in a RELEASE
endpoint, which no run holds, is a fault (log entry 8). -/
def answerPayload (e : EpId) (k : Kind) (p : Payload) (s : State) :
    Host.Outcome State Fault Refusal :=
  match k, p with
  | .press, _ => .next (complete s .okPress)
  | .release, .duration d => .next (complete s (.okRelease d))
  | .release, .unit => .fault (.payloadMismatch e)

/-- RECV e (41_detector.md R173). -/
def execRecv (e : EpId) (s : State) : Host.Outcome State Fault Refusal :=
  whenRunning s
    (if s.nextEp ≤ epIndex e then .next (illegal (encode (.recv e)) s)
     else
      match s.ep[epIndex e]? with
      | none => .fault (.endpointMissing e)
      | some x =>
        match x.q with
        | [] => hold s
        | p :: rest =>
          answerPayload e x.kind p { s with ep := s.ep.set (epIndex e) { x with q := rest } })

/-- SAMPLE v (41_detector.md R164), a bench operation: NOW is read once. -/
def execSample (v : Byte) (s : State) : Host.Outcome State Fault Refusal :=
  whenBench (encode (.sample v)) s (whenRunning s (.next (complete (eval v s.now s) .ok)))

end Sys2Proof.Machine
end

