-- ==== Sys2Proof/Machine/Encoder.lean ====
section
/-! DEFINITION. Unit ENC (40_encoder.md): the encoder, the colour path, and the operations SETCOLOR,
SETBRT, HALT and ENCB. -/

namespace Sys2Proof.Machine

/-! ## The encoder (40_encoder.md R120) -/

/-- `n` rounds of the encoder's loop from snapshot `snap` and working copy `w`: the snapshots
appended and the last one. Each round sends bit 7 of `w` and shifts `w` left at width 8. -/
def encRounds (clk dat : Fin 8) : Nat → Byte → Byte → List Byte × Byte
  | 0, snap, _ => ([], snap)
  | n + 1, snap, w =>
    let low := setBit (setBit snap clk false) dat w.msb
    let high := setBit low clk true
    let rest := encRounds clk dat n high (w <<< 1)
    (low :: high :: rest.1, rest.2)

/-- ENCB's effect on SNAP and FRAME: eight rounds (40_encoder.md R120). -/
def shiftOut (s : State) (b : Byte) : State :=
  let r := encRounds s.params.clkBit s.params.datBit 8 s.snap b
  { s with snap := r.2, frame := s.frame ++ r.1 }

/-! ## The colour path (40_encoder.md R127 to R129) -/

/-- `min(255, (raw * t) div 255)`: the exact product, the quotient with the fraction discarded, the
clamp (40_encoder.md R127). -/
def scaleIndex (raw t : Byte) : Byte :=
  BitVec.ofNat 8 (min 255 (raw.toNat * t.toNat / 255))

/-- One channel of RESOLVE (40_encoder.md R128) at brightness `t`. -/
def channel (g : Option (Vector Byte 256)) (t raw : Byte) : Byte :=
  gammaAt g (scaleIndex raw t)

/-- `BUILD(Rf, Gf, Bf)`: blue first, red last (40_encoder.md R129, 30_encoding.md R93). -/
def build (rf gf bf : Byte) : List Byte :=
  [0x00#8, 0x00#8, Config.marker, bf, gf, rf, 0x00#8, 0x00#8]

/-- The LED command of a requested colour: RESOLVE with one read of BRT, then BUILD. -/
def ledCommand (s : State) (r g b : Byte) : List Byte :=
  let t := s.brt
  build (channel s.gamma t r) (channel s.gamma t g) (channel s.gamma t b)

/-- FRAME emptied, then the command's bytes encoded in index order (40_encoder.md R130). -/
def encodeCommand (c : List Byte) (s : State) : State :=
  c.foldl shiftOut { s with frame := [] }

/-! ## Operations -/

/-- SETCOLOR r, g, b (40_encoder.md R132). -/
def execSetcolor (r g b : Byte) (s : State) : Host.Outcome State Fault Refusal :=
  whenRunning s (deposit r g b s)

/-- SETBRT l (40_encoder.md R133). -/
def execSetbrt (l : Byte) (s : State) : Host.Outcome State Fault Refusal :=
  whenRunning s (.next (complete { s with brt := l } .ok))

/-- HALT: SETCOLOR of QUIESCENT = (0, 0, 0), same holds and same errors (40_encoder.md R134,
decision D9). -/
def execHalt (s : State) : Host.Outcome State Fault Refusal :=
  whenRunning s (deposit 0#8 0#8 0#8 s)

/-- ENCB b (40_encoder.md R120), a bench operation. -/
def execEncb (b : Byte) (s : State) : Host.Outcome State Fault Refusal :=
  whenBench (encode (.encb b)) s (whenRunning s (.next (complete (shiftOut s b) .ok)))

end Sys2Proof.Machine
end

