-- ==== Sys2Proof/Machine/Agents.lean ====
section
/-! DEFINITION. The steps that are not operations: LEDSTEP (40_encoder.md R130), POLLSTEP
(41_detector.md R163), and boot, CONFIGURE and INIT (70_reset_and_hazards.md R244, R246). -/

namespace Sys2Proof.Machine

/-- LEDSTEP(ans) (40_encoder.md R130). Not enabled outside RUNNING or while MBOX is EMPTY: the turn
passes and nothing changes (60_exceptions.md R222). -/
def ledStep (ans : WriteAns) (s : State) : State :=
  if s.status = .running then
    match s.mbox with
    | .empty => s
    | .full r g b =>
      let t := encodeCommand (ledCommand s r g b) { s with mbox := .empty }
      memWrite t.params.regOut t.frame ans (faultEntry (.transport .write)) id t
  else s

/-- POLLSTEP(ans, NOW) (41_detector.md R163). Not enabled outside RUNNING: the turn passes. -/
def pollStep (ans : ReadAns) (s : State) : State :=
  if s.status = .running then
    memRead s.params.regIn ans (faultEntry (.transport .read)) (fun v t => eval v t.now t) s
  else s

/-- A boot procedure returns to its caller (60_exceptions.md R201, R203). -/
def bootReturn (r : BootReturn) (s : State) : State :=
  { s with bootReturns := s.bootReturns ++ [r] }

/-- CONFIGURE's writes with the table chosen (70_reset_and_hazards.md R244). -/
def install (g : Vector Byte 256) (interval : Option Time) (s : State) : State :=
  { s with
    gamma := some g, pollInterval := some (interval.getD Config.pollIntervalDefault),
    status := .configured }

/-- CONFIGURE (70_reset_and_hazards.md R244): a table of any length but 256 is a ConfigurationError
and changes nothing. Outside RESET it is outside the model (log entry 9). -/
def configure (gamma : Option (List Byte)) (interval : Option Time) (s : State) :
    Host.Outcome State Fault Refusal :=
  if s.status = .reset then
    match gamma with
    | none => .next (bootReturn .done (install s.params.gammaDefault interval s))
    | some l =>
      if h : l.length = Config.gammaLen then
        .next (bootReturn .done (install ⟨l.toArray, by simpa [Config.gammaLen] using h⟩ interval s))
      else .next (bootReturn (.failed (.configurationError "gamma_table")) s)
  else .refused .configureOutsideReset

/-- SetupError(index): fault entry, and the error surfaces to the caller (60_exceptions.md R203,
70_reset_and_hazards.md R247). -/
def setupError (index : Fin 3) (s : State) : State :=
  bootReturn (.failed (.setupError index)) (faultEntry (.setup index) s)

/-- INIT's three writes in order, stopping at the first failure (70_reset_and_hazards.md R246,
30_encoding.md R104). All three in one step is a DESIGN CHOICE (log entry 14): 20_memory.md R66 speaks
of three steps of INIT, R246 leaves one or three open. -/
def setupWrites (a0 a1 a2 : WriteAns) (s : State) : State :=
  memWrite s.params.regCfg [s.params.dirMask] a0 (setupError 0)
    (memWrite s.params.regPol [s.params.polVal] a1 (setupError 1)
      (memWrite s.params.regOut [Config.outInit] a2 (setupError 2)
        (fun t => bootReturn .done { t with status := .running }))) s

/-- INIT (70_reset_and_hazards.md R246). Outside CONFIGURED it is outside the model (log entry 9). -/
def initBlock (a0 a1 a2 : WriteAns) (s : State) : Host.Outcome State Fault Refusal :=
  if s.status = .configured then .next (setupWrites a0 a1 a2 s)
  else .refused .initOutsideConfigured

end Sys2Proof.Machine
end

