-- ==== Sys2Proof/Machine/Dispatch.lean ====
section
/-! DEFINITION. One arm per operation: what each of the eight does to the state. -/

namespace Sys2Proof.Machine

def exec (i : Instr) (s : State) : Host.Outcome State Fault Refusal :=
  match i with
  | .setcolor r g b => Sys2Proof.Machine.execSetcolor r g b s
  | .setbrt l => Sys2Proof.Machine.execSetbrt l s
  | .subp n => Sys2Proof.Machine.execSubp n s
  | .subr n => Sys2Proof.Machine.execSubr n s
  | .halt => Sys2Proof.Machine.execHalt s
  | .recv e => Sys2Proof.Machine.execRecv e s
  | .encb b => Sys2Proof.Machine.execEncb b s
  | .sample v => Sys2Proof.Machine.execSample v s

end Sys2Proof.Machine
end

