-- ==== Sys2Proof/Machine/Step.lean ====
section
/-! DEFINITION. One step: the input says whose turn it is, and that agent attempts its step
(20_memory.md R72, 60_exceptions.md R226). -/

namespace Sys2Proof.Machine

/-- The host's turn: the word it presents is decoded and executed; a word the decoder refuses
returns IllegalCommand before anything else is looked at (60_exceptions.md R205); past the end of
the program the host has no step (10_state.md R27). -/
def hostTurn (s : State) : Host.Outcome State Fault Refusal :=
  match presentedWord s with
  | none => .next s
  | some cw =>
    match decode s.params.bench cw with
    | .ok i => exec i s
    | .error _ => .next (illegal cw s)

/-- The step of the agent whose turn it is. -/
def takeTurn (t : Turn) (s : State) : Host.Outcome State Fault Refusal :=
  match t with
  | .host => hostTurn s
  | .led ans => .next (ledStep ans s)
  | .poll ans => .next (pollStep ans s)
  | .configure g p => configure g p s
  | .init a0 a1 a2 => initBlock a0 a1 a2 s
  | .reset => .next (resetBlock s)

/-- One step of the block with its environment. -/
def step (s : State) : Host.Outcome State Fault Refusal :=
  takeTurn (nextInput s).turn (takeInput s)

/-- `s` with the operation of that word presented by the host, and the host's turn next: the word
stands at the program index, and a host turn is first among the inputs. -/
def State.withFetchWord (s : State) (nbits w : Nat) : State :=
  { s with
    program := placeWord (tableWord nbits w) s.pi s.program,
    env := hostTurnFirst s.now s.env }

end Sys2Proof.Machine
end

