-- ==== Sys2Proof/Safety.lean ====
section
/-! DEFINITION. The terms the claims use: the invariant of reachable states (10_state.md R44), the
premises on the environment (60_exceptions.md R224, R225), and the closed forms that the spec gives
for the encoder, the detector and the operation map. -/

namespace Sys2Proof.Safety

open Sys2Proof.Machine

/-! ## The invariant -/

/-- The payload is of the endpoint's kind (10_state.md R31). -/
def fits : Kind → Payload → Bool
  | .press, .unit => true
  | .press, .duration _ => false
  | .release, .unit => false
  | .release, .duration _ => true

/-- Endpoint `id` exists and is of the given kind and button. -/
def names (s : State) (id : Nat) (k : Kind) (b : Button) : Prop :=
  ∃ x, s.ep[id]? = some x ∧ x.kind = k ∧ x.btn = b

/-- What holds in every reachable state: 10_state.md R44 (a), (b), (e) to (h), with the value ranges
of R31 to R34 and R37. -/
structure Inv (s : State) : Prop where
  /-- The parameters are admissible (00_scope.md R6). -/
  admissible : s.params.admissible = true
  /-- R44 (a). -/
  snapOther : s.snap &&& ~~~ pinMask s.params = 0#8
  /-- The other pins are 0 in every snapshot the block produces (40_encoder.md R123). -/
  frameOther : ∀ x ∈ s.frame, x &&& ~~~ pinMask s.params = 0#8
  /-- R44 (b). -/
  frameLen : s.frame.length % 16 = 0
  /-- R44 (e). -/
  t0Iff : ∀ b : Button, (s.t0[b]).isSome = s.pressed[b]
  /-- The endpoint file has the ids 0 to NEXT_EP - 1 (R31). -/
  nextEp : s.ep.length = s.nextEp
  /-- NEXT_EP counts to N_EP_MAX (R32). -/
  epMax : s.nextEp ≤ Config.nEpMax
  /-- R44 (f): the ids of PSUB[b] are those of the PRESS endpoints of button b. -/
  psubMem : ∀ (b : Button) (id : Nat), id ∈ s.psub[b] ↔ names s id .press b
  /-- R44 (f): the ids of RSUB[b] are those of the RELEASE endpoints of button b. -/
  rsubMem : ∀ (b : Button) (id : Nat), id ∈ s.rsub[b] ↔ names s id .release b
  /-- R44 (f): no id occurs twice in one sequence. -/
  psubNodup : ∀ b : Button, (s.psub[b]).Nodup
  /-- R44 (f): no id occurs twice in one sequence. -/
  rsubNodup : ∀ b : Button, (s.rsub[b]).Nodup
  /-- R44 (g). -/
  room : ∀ x ∈ s.ep, x.q.length ≤ s.params.epCap
  /-- A queue holds payloads of its endpoint's kind (R31). -/
  payloads : ∀ x ∈ s.ep, ∀ p ∈ x.q, fits x.kind p = true
  /-- R44 (h). -/
  causeNone : s.status = .reset ∨ s.status = .configured ∨ s.status = .running → s.cause = .none
  /-- SETUP_FAILED goes with a SetupError (60_exceptions.md R213). -/
  causeSetup : s.status = .setupFailed → ∃ i, s.cause = .setup i
  /-- FAULTED goes with a TransportFault (60_exceptions.md R213). -/
  causeFault : s.status = .faulted → ∃ d, s.cause = .transport d
  /-- GAMMA holds a value once CONFIGURE has run, and not before (R33). -/
  gammaSet : s.gamma.isSome = decide (s.status ≠ .reset)
  /-- POLL_INTERVAL holds a value once CONFIGURE has run, and not before (R34). -/
  intervalSet : s.pollInterval.isSome = decide (s.status ≠ .reset)

/-- The registers that operations and agents write are at their reset values
(70_reset_and_hazards.md R248: what INIT finds and leaves). -/
def untouched (s : State) : Prop :=
  s.snap = 0x00#8 ∧ s.frame = [] ∧ s.brt = 255#8 ∧ s.mbox = .empty
    ∧ s.pressed = State.reset.pressed ∧ s.t0 = State.reset.t0
    ∧ s.psub = State.reset.psub ∧ s.rsub = State.reset.rsub
    ∧ s.ep = [] ∧ s.nextEp = 0 ∧ s.lastPoll = none

/-- Before RUNNING nothing has been touched (70_reset_and_hazards.md R241, R248). -/
def UntouchedBeforeRunning (s : State) : Prop :=
  s.status = .reset ∨ s.status = .configured → untouched s

/-! ## Premises on the environment -/

/-- The spacing premise for two consecutive poll cycles (60_exceptions.md R224). -/
def spaced (interval t1 t2 : Time) : Prop := t1.toNat + interval.toNat ≤ t2.toNat

/-- The first half of the monotonicity premise (60_exceptions.md R225). -/
def notBefore (t1 t2 : Time) : Prop := t1.toNat ≤ t2.toNat

/-- The end of a run of a test program (60_exceptions.md R233): the program is at its end, so no
operation is holding, and every accepted colour has been served or the block has stopped. -/
def runEnded (s : State) : Prop :=
  s.pi = s.program.length ∧ (s.mbox = .empty ∨ s.status ≠ .running)

/-! ## States compared -/

/-- The registers of 10_state.md R20 of two states are equal. -/
def sameBlock (s t : State) : Prop :=
  s.status = t.status ∧ s.cause = t.cause ∧ s.snap = t.snap ∧ s.frame = t.frame ∧ s.brt = t.brt
    ∧ s.mbox = t.mbox ∧ s.pressed = t.pressed ∧ s.t0 = t.t0 ∧ s.psub = t.psub ∧ s.rsub = t.rsub
    ∧ s.ep = t.ep ∧ s.nextEp = t.nextEp ∧ s.gamma = t.gamma ∧ s.pollInterval = t.pollInterval
    ∧ s.lastPoll = t.lastPoll

/-! ## What the coming step is -/

/-- The coming step is the host's, and the word it presents decodes to `i`. -/
def hostRuns (s : State) (i : Instr) : Prop :=
  (nextInput s).turn = .host ∧ ∃ cw, s.program[s.pi]? = some cw ∧ decode s.params.bench cw = .ok i

/-- The coming step evaluates the sample `v`: a POLLSTEP whose read succeeds, or SAMPLE. -/
def evaluates (s : State) (v : Byte) : Prop :=
  (nextInput s).turn = .poll (.ok v) ∨ hostRuns s (.sample v)

/-! ## The encoder in closed form -/

/-- Snapshot `j = 2k + p` of the image of `b` from `s0`, 40_encoder.md R121: the other pins of `s0`,
the data bit `b[7-k]`, the clock bit `p`. -/
def imageSnapshot (p : Params) (s0 b : Byte) (j : Nat) : Byte :=
  (s0 &&& ~~~ pinMask p)
    ||| (if b.getLsbD (7 - j / 2) then bitMask p.datBit else 0#8)
    ||| (if j % 2 = 1 then bitMask p.clkBit else 0#8)

/-- The sixteen snapshots of R121. -/
def image (p : Params) (s0 b : Byte) : List Byte := (List.range 16).map (imageSnapshot p s0 b)

/-- The frame of a command: the images of its bytes in index order (30_encoding.md R93). -/
def frameOf (p : Params) (s0 : Byte) (c : List Byte) : List Byte := c.flatMap (image p s0)

/-- Reading a byte back from sixteen snapshots (30_encoding.md R108): the data bit of each
clock-high snapshot, most significant first. -/
def readBack (p : Params) (f : List Byte) : Byte :=
  BitVec.ofNat 8
    ((List.range 8).map fun k =>
      if (f.getD (2 * k + 1) 0#8).getLsbD p.datBit then 2 ^ (7 - k) else 0).sum

/-- The scaled index of RESOLVE as the spec writes it (40_encoder.md R128). -/
def scaled (raw brt : Byte) : Nat := min 255 (raw.toNat * brt.toNat / 255)

/-! ## The detector in closed form -/

/-- Press edge of button b (41_detector.md R165): its bit is 1 and it has no table entry. -/
def pressEdge (s : State) (v : Byte) (b : Button) : Bool := v.getLsbD b && !s.pressed[b]

/-- Release edge of button b (41_detector.md R165). -/
def releaseEdge (s : State) (v : Byte) (b : Button) : Bool := !v.getLsbD b && s.pressed[b]

/-- The notification that a cycle with sample `v` offers an endpoint of that kind and button. -/
def offered (s : State) (v : Byte) (now : Time) (k : Kind) (b : Button) : Option Payload :=
  match k with
  | .press => if pressEdge s v b then some .unit else none
  | .release =>
    if releaseEdge s v b then (s.t0[b]).map (fun t => Payload.duration (now - t)) else none

/-- A queue after a notification has been offered to it: appended if there is room, else dropped
(41_detector.md R168). -/
def afterOffer (cap : Nat) (q : List Payload) : Option Payload → List Payload
  | some p => if q.length < cap then q ++ [p] else q
  | none => q

/-- What one poll cycle with sample `v` at time `now` makes of PRESSED, T0, the endpoints and
LAST_POLL (41_detector.md R165, R166); every other register is as before. -/
def cycle (v : Byte) (now : Time) (s t : State) : Prop :=
  t = { s with pressed := t.pressed, t0 := t.t0, ep := t.ep, lastPoll := some now }
    ∧ (∀ b : Button, t.pressed[b] = v.getLsbD b)
    ∧ (∀ b : Button, t.t0[b]
        = if pressEdge s v b then some now else if releaseEdge s v b then none else s.t0[b])
    ∧ (∀ i : Nat, t.ep[i]? = (s.ep[i]?).map fun x =>
        { x with q := afterOffer s.params.epCap x.q (offered s v now x.kind x.btn) })

/-! ## The operation map as a table (30_encoding.md R97) -/

/-- One row: match, mask, whether the low three bits are a button number, whether it is bench. -/
structure Row where
  value  : Word
  mask   : Word
  button : Bool
  bench  : Bool
  deriving DecidableEq, Repr

/-- The rows of 30_encoding.md R97 in order. -/
def rows : List Row :=
  [⟨0x01000000#32, 0xFF000000#32, false, false⟩,
   ⟨0x02000000#32, 0xFFFFFF00#32, false, false⟩,
   ⟨0x03000000#32, 0xFFFFFFF8#32, true, false⟩,
   ⟨0x04000000#32, 0xFFFFFFF8#32, true, false⟩,
   ⟨0x05000000#32, 0xFFFFFFFF#32, false, false⟩,
   ⟨0x06000000#32, 0xFFFF0000#32, false, false⟩,
   ⟨0x10000000#32, 0xFFFFFF00#32, false, true⟩,
   ⟨0x11000000#32, 0xFFFFFF00#32, false, true⟩]

/-- A word spells the operation of a row (30_encoding.md R97), where BENCH admits the row. -/
def Row.spells (bench : Bool) (cw : Word) (r : Row) : Bool :=
  decide (cw &&& r.mask = r.value) && (!r.button || decide (cw.extractLsb' 0 3 ≤ 4#3))
    && (!r.bench || bench)

/-- The word is legal: some row of the map matches it (30_encoding.md R100). -/
def legalWord (bench : Bool) (cw : Word) : Bool := rows.any (Row.spells bench cw)

/-! ## The transactions of the block (20_memory.md R62) -/

/-- The five shapes of transaction, by what is written and how many bytes are read, `frame` being what
the step that issues it leaves in FRAME; a success answers exactly as many bytes as are read. -/
def fiveShapes (p : Params) (frame : List Byte) (x : Xfer) : Prop :=
  x.bus = p.busAddr ∧ (∀ rd, x.outcome = .ok rd → rd.length = x.n)
    ∧ ((x.w = [p.regCfg, p.dirMask] ∧ x.n = 0) ∨ (x.w = [p.regPol, p.polVal] ∧ x.n = 0)
      ∨ (x.w = [p.regOut, 0x00#8] ∧ x.n = 0) ∨ (x.w = [p.regIn] ∧ x.n = 1)
      ∨ (frame.length = 128 ∧ x.w = p.regOut :: frame ∧ x.n = 0))

/-! ## Runs and colour requests (20_memory.md R74) -/

/-- A requested colour. -/
structure Colour where
  r : Byte
  g : Byte
  b : Byte
  deriving DecidableEq, Repr

/-- The colour an operation requests: SETCOLOR its operands, HALT black (40_encoder.md R134). -/
def requestOf : Instr → Option Colour
  | .setcolor r g b => some ⟨r, g, b⟩
  | .halt => some ⟨0#8, 0#8, 0#8⟩
  | .setbrt _ => none
  | .subp _ => none
  | .subr _ => none
  | .recv _ => none
  | .encb _ => none
  | .sample _ => none

/-- The colours accepted by the step from `s` to `t`: the one the host's operation requests, if the
step completed it with `ok`. -/
def accepted (s t : State) : List Colour :=
  match (nextInput s).turn, presentedWord s with
  | .host, some cw =>
    match decode s.params.bench cw with
    | .ok i => if t.results = s.results ++ [.ok] then (requestOf i).toList else []
    | .error _ => []
  | _, _ => []

/-- The brightness of the coming step, if it is a LEDSTEP that serves a request. -/
def servedAt (s : State) : List Byte :=
  match (nextInput s).turn with
  | .led _ => if s.isRunning && s.mboxFull then [s.brt] else []
  | _ => []

/-- The request pending in the mailbox. -/
def pending (s : State) : List Colour :=
  match s.mbox with
  | .empty => []
  | .full r g b => [⟨r, g, b⟩]

/-- A run without reset, with the colours it accepts and the brightness at each LEDSTEP that serves
one, oldest first. -/
inductive Run : State → List Colour → List Byte → State → Prop where
  | nil (s : State) : Run s [] [] s
  | cons (s t u : State) (cs : List Colour) (ls : List Byte) (h : step s = .next t)
    (hn : (nextInput s).turn ≠ .reset) (rest : Run t cs ls u) :
    Run s (accepted s t ++ cs) (servedAt s ++ ls) u

/-- The payloads of the LED writes issued between `s` and `t`: of the five shapes of transaction the
only one of 129 bytes (20_memory.md R62). -/
def ledWrites (s t : State) : List (List Byte) :=
  ((t.xfers.drop s.xfers.length).filter fun x => decide (x.w.length = 129)).map fun x => x.w.tail

/-- The frame of a colour at brightness `l` with the table `g`, from a snapshot whose other pins are
0: RESOLVE, BUILD, eight images (40_encoder.md R128 to R130). -/
def colourFrame (p : Params) (g : Option (Vector Byte 256)) (c : Colour) (l : Byte) : List Byte :=
  frameOf p 0x00#8 (build (channel g l c.r) (channel g l c.g) (channel g l c.b))

/-! ## Endless runs and fairness (60_exceptions.md R226) -/

/-- LEDSTEP is enabled (60_exceptions.md R222). -/
def ledEnabled (s : State) : Prop := s.status = .running ∧ s.mbox ≠ .empty

/-- POLLSTEP is enabled (60_exceptions.md R223). -/
def pollEnabled (s : State) : Prop := s.status = .running

/-- State `n` of a run with input `n` of its environment queued. -/
def fed (run : Nat → State) (input : Nat → Input) (n : Nat) : State :=
  { run n with env := [input n] }

/-- An endless run: the environment supplies one input for each step, and every step answers the next
state. -/
def EndlessRun (run : Nat → State) (input : Nat → Input) : Prop :=
  ∀ n, step (fed run input n) = .next (run (n + 1))

/-- Fairness (a) of 60_exceptions.md R226: if LEDSTEP stays enabled it is eventually taken. -/
def LedFair (run : Nat → State) (input : Nat → Input) : Prop :=
  ∀ n, (∀ m, n ≤ m → ledEnabled (run m)) → ∃ m, n ≤ m ∧ ∃ ans, (input m).turn = .led ans

/-- Fairness (b) of 60_exceptions.md R226: while STATUS is RUNNING, POLLSTEP is taken again and again
without end. -/
def PollFair (run : Nat → State) (input : Nat → Input) : Prop :=
  ∀ n, (∀ m, n ≤ m → pollEnabled (run m)) → ∃ m, n ≤ m ∧ ∃ ans, (input m).turn = .poll ans

/-- A fair endless run: a hypothesis of claims about what happens eventually, not a guard of a step
(log entry 12). -/
structure FairRun (run : Nat → State) (input : Nat → Input) : Prop where
  endless : EndlessRun run input
  led     : LedFair run input
  poll    : PollFair run input

end Sys2Proof.Safety
end

