-- ==== Sys2Proof/Certificates/Slice0/Obligations.lean ====
section
/-! DEFINITION. The statements for the provers. Each names the rules of spec/ it formalises; what the
model chose is named with its log entry. -/

open Sys2Proof Sys2Proof.Machine Sys2Proof.Safety

/-! ## Encoding -/

/-- One word of each operation, and words that spell none, as 95_test_vectors.md L2.6 lists them. -/
def Obligations.ListedWordsDecode : Prop :=
  decode true 0x01FF0000#32 = .ok (.setcolor 255#8 0#8 0#8)
    ∧ decode true 0x02000080#32 = .ok (.setbrt 128#8)
    ∧ decode true 0x03000004#32 = .ok (.subp 4#3)
    ∧ decode true 0x04000002#32 = .ok (.subr 2#3)
    ∧ decode true 0x05000000#32 = .ok .halt
    ∧ decode true 0x0600012C#32 = .ok (.recv 300#16)
    ∧ decode true 0x100000A5#32 = .ok (.encb 0xA5#8)
    ∧ decode true 0x110000F6#32 = .ok (.sample 0xF6#8)
    ∧ decode true 0x00000000#32 = .error (.unassignedOp 0x00#8)
    ∧ decode true 0x12000000#32 = .error (.unassignedOp 0x12#8)
    ∧ decode true 0x02000180#32 = .error .reservedNotZero
    ∧ decode true 0x03000005#32 = .error (.buttonAboveFour 5#3)
    ∧ decode true 0x0300000A#32 = .error .reservedNotZero
    ∧ decode false 0x10000041#32 = .error .benchDisabled

/-- Decoding the word of an operation the block accepts gives the operation back, with every operand
at every value (30_encoding.md R97, R98). -/
def Obligations.DecodeOfEncode : Prop :=
  ∀ (bench : Bool) (i : Instr), i.accepted bench = true → decode bench (encode i) = .ok i

/-- A word that decodes is the word of what it decodes to, and that operation is accepted: every
operation has one word (30_encoding.md R97: the rows are disjoint). -/
def Obligations.EncodeOfDecode : Prop :=
  ∀ (bench : Bool) (cw : Word) (i : Instr), decode bench cw = .ok i →
    encode i = cw ∧ i.accepted bench = true

/-- A word is illegal exactly when no row of the map matches it; then the operation returns
IllegalCommand with the word, whatever the state, and nothing else changes; every RECV word is legal
(30_encoding.md R100). -/
def Obligations.IllegalWordChangesNothing : Prop :=
  (∀ (bench : Bool) (cw : Word), (∃ i, decode bench cw = .ok i) ↔ legalWord bench cw = true)
    ∧ (∀ (s : State) (cw : Word), (nextInput s).turn = .host → s.program[s.pi]? = some cw →
        legalWord s.params.bench cw = false →
        step s = .next { takeInput s with
          results := s.results ++ [.err (.illegalCommand cw)], pi := s.pi + 1 })
    ∧ (∀ (bench : Bool) (e : EpId), legalWord bench (0x0600#16 ++ e) = true)

/-- A host turn runs the operation that the presented word decodes to: the step is `exec` of it, in
the state that has taken the turn's input (NOW, and the queue of inputs moved on). -/
def Obligations.StepRunsTheDecodedOperation : Prop :=
  ∀ (s : State) (cw : Word) (i : Instr), (nextInput s).turn = .host →
    s.program[s.pi]? = some cw → decode s.params.bench cw = .ok i →
    step s = exec i { s with
      now := (nextInput s).now, env := s.env.tail, steps := s.steps + 1 }

/-! ## Operations of unit ENC -/

/-- SETCOLOR (40_encoder.md R132): refused outside RUNNING, held while MBOX is FULL, else deposited.
Nothing else changes. -/
def Obligations.SetcolorDeposits : Prop :=
  ∀ (r g b : Byte) (s : State),
    (s.status ≠ .running → exec (.setcolor r g b) s = .next { s with
      results := s.results ++ [.err (.notRunning s.status s.cause)], pi := s.pi + 1 })
    ∧ (s.status = .running → s.mbox ≠ .empty → exec (.setcolor r g b) s = .next s)
    ∧ (s.status = .running → s.mbox = .empty → exec (.setcolor r g b) s = .next { s with
      mbox := .full r g b, results := s.results ++ [.ok], pi := s.pi + 1 })

/-- SETBRT (40_encoder.md R133): never holds, writes BRT and nothing else. -/
def Obligations.SetbrtWritesBrightness : Prop :=
  ∀ (l : Byte) (s : State),
    (s.status ≠ .running → exec (.setbrt l) s = .next { s with
      results := s.results ++ [.err (.notRunning s.status s.cause)], pi := s.pi + 1 })
    ∧ (s.status = .running → exec (.setbrt l) s = .next { s with
      brt := l, results := s.results ++ [.ok], pi := s.pi + 1 })

/-- HALT (40_encoder.md R134): requests the colour (0, 0, 0) with SETCOLOR's holds and errors;
STATUS is unchanged and nothing stops; the command that results carries gamma(0) in every channel,
whatever the brightness. -/
def Obligations.HaltRequestsBlack : Prop :=
  (∀ (s : State) (g : Vector Byte 256), s.gamma = some g →
    ledCommand s 0#8 0#8 0#8 = [0x00#8, 0x00#8, 0xEF#8, g[0], g[0], g[0], 0x00#8, 0x00#8])
    ∧ ∀ s : State,
    (s.status ≠ .running → exec .halt s = .next { s with
      results := s.results ++ [.err (.notRunning s.status s.cause)], pi := s.pi + 1 })
    ∧ (s.status = .running → s.mbox ≠ .empty → exec .halt s = .next s)
    ∧ (s.status = .running → s.mbox = .empty → exec .halt s = .next { s with
      mbox := .full 0#8 0#8 0#8, results := s.results ++ [.ok], pi := s.pi + 1 })

/-- ENCB in closed form (40_encoder.md R121, which the spec derives from R120): the sixteen
snapshots appended, SNAP after them, nothing else; and the appended snapshots depend on SNAP
only through its other-pin bits. -/
def Obligations.EncbAppendsTheImage : Prop :=
  (∀ (b : Byte) (s : State), s.params.clkBit ≠ s.params.datBit → s.params.bench = true →
    s.status = .running → exec (.encb b) s = .next { s with
      snap := (s.snap &&& ~~~ pinMask s.params)
        ||| (if b.getLsbD 0 then bitMask s.params.datBit else 0#8) ||| bitMask s.params.clkBit
      frame := s.frame ++ image s.params s.snap b
      results := s.results ++ [.ok], pi := s.pi + 1 })
    ∧ (∀ (b : Byte) (s t s' t' : State), s.params.clkBit ≠ s.params.datBit → s.params = t.params →
      s.snap &&& ~~~ pinMask s.params = t.snap &&& ~~~ pinMask s.params →
      exec (.encb b) s = .next s' → exec (.encb b) t = .next t' →
      s.params.bench = true → s.status = .running → t.status = .running →
      s'.frame.drop s.frame.length = t'.frame.drop t.frame.length)

/-- Every snapshot ENCB appends keeps the other pins of SNAP, and under the invariant they are 0 in
every snapshot of FRAME (40_encoder.md R123). -/
def Obligations.SnapshotsKeepOtherPins : Prop :=
  (∀ (b : Byte) (s : State), s.params.clkBit ≠ s.params.datBit → s.params.bench = true →
    s.status = .running → ∃ t f, exec (.encb b) s = .next t ∧ t.frame = s.frame ++ f
      ∧ f.length = 16 ∧ ∀ x ∈ f, x &&& ~~~ pinMask s.params = s.snap &&& ~~~ pinMask s.params)
    ∧ (∀ s t : State, Inv s → step s = .next t → ∀ x ∈ t.frame, x &&& ~~~ pinMask t.params = 0#8)

/-- Two images compared (40_encoder.md R124, which the spec derives from R121): from one SNAP, the
images of two bytes differ at most in the data bit, and there exactly where the bytes differ;
the clock bit of snapshot j is j mod 2; encoded one after the other, the second byte has the
same image; from SNAP = 0 with the default pins the images of 0x00 and 0xFF are the two the spec
lists. -/
def Obligations.ImagesDifferInDataOnly : Prop :=
  (∀ (b b' : Byte) (s : State), s.params.clkBit ≠ s.params.datBit → s.params.bench = true →
    s.status = .running →
    ∃ t t' u f f', exec (.encb b) s = .next t ∧ exec (.encb b') s = .next t'
      ∧ exec (.encb b') t = .next u
      ∧ t.frame = s.frame ++ f ∧ t'.frame = s.frame ++ f' ∧ u.frame = s.frame ++ f ++ f'
      ∧ f.length = 16 ∧ f'.length = 16
      ∧ (∀ j k : Nat, j < 16 → k < 8 → k ≠ s.params.datBit.val →
          (f.getD j 0#8).getLsbD k = (f'.getD j 0#8).getLsbD k)
      ∧ (∀ j : Nat, j < 16 →
          ((f.getD j 0#8).getLsbD s.params.datBit ≠ (f'.getD j 0#8).getLsbD s.params.datBit
            ↔ b.getLsbD (7 - j / 2) ≠ b'.getLsbD (7 - j / 2)))
      ∧ (∀ j : Nat, j < 16 → (f.getD j 0#8).getLsbD s.params.clkBit = decide (j % 2 = 1)))
    ∧ (∀ s : State, s.params.clkBit = 6 → s.params.datBit = 7 → s.snap = 0x00#8 →
      s.params.bench = true → s.status = .running →
      ∃ t t', exec (.encb 0x00#8) s = .next t ∧ exec (.encb 0xFF#8) s = .next t'
        ∧ t.frame = s.frame ++ (List.replicate 8 [0x00#8, 0x40#8]).flatten
        ∧ t'.frame = s.frame ++ (List.replicate 8 [0x80#8, 0xC0#8]).flatten)

/-- Round trip (40_encoder.md R125, which the spec derives from R121): reading the data bit of each
clock-high snapshot, most significant first, gives the encoded byte back, for every byte and
every SNAP. -/
def Obligations.EncodedByteReadsBack : Prop :=
  ∀ (b : Byte) (s : State), s.params.clkBit ≠ s.params.datBit → s.params.bench = true →
    s.status = .running →
    ∃ t, exec (.encb b) s = .next t ∧ readBack s.params (t.frame.drop s.frame.length) = b

/-! ## The colour path and LEDSTEP -/

/-- The arithmetic of the colour path (40_encoder.md R127, items (a) to (c), for the operands that
occur): the product needs 16 bits, the quotient is truncated, the clamp never binds. -/
def Obligations.ScalingIsExact : Prop :=
  ∀ raw t : Byte, raw.toNat * t.toNat ≤ 65025 ∧ raw.toNat * t.toNat / 255 ≤ 255
    ∧ (scaleIndex raw t).toNat = raw.toNat * t.toNat / 255
    ∧ ((scaleIndex raw t).toNat = 255 ↔ raw = 255#8 ∧ t = 255#8)

/-- The properties of RESOLVE (40_encoder.md R131, which the spec derives from R128): brightness 0
resolves every channel to gamma(0); the command of (255, 0, 0) at brightness 255 with identity
gamma; the index is monotone in both operands. -/
def Obligations.ResolveProperties : Prop :=
  (∀ (s : State) (g : Vector Byte 256) (r gr b : Byte), s.gamma = some g → s.brt = 0#8 →
      ledCommand s r gr b = [0x00#8, 0x00#8, 0xEF#8, g[0], g[0], g[0], 0x00#8, 0x00#8])
    ∧ (∀ s : State, s.gamma = some (Vector.ofFn fun i => BitVec.ofNat 8 i.val) → s.brt = 255#8 →
      ledCommand s 255#8 0#8 0#8
        = [0x00#8, 0x00#8, 0xEF#8, 0x00#8, 0x00#8, 0xFF#8, 0x00#8, 0x00#8])
    ∧ (∀ raw raw' t t' : Byte, raw.toNat ≤ raw'.toNat → t.toNat ≤ t'.toNat →
      (scaleIndex raw t).toNat ≤ (scaleIndex raw' t').toNat)

/-- LEDSTEP (40_encoder.md R130) with the transport's answer `ans`: the request is consumed, each
channel is gamma of its scaled value at the brightness of this step, FRAME is the 128 snapshots
of the command, one write carries it, SNAP ends with the clock high and the data low; a failed
write enters FAULTED with (3, WRITE). Nothing else changes. Where it is not enabled no register
changes and no transaction is issued. -/
def Obligations.LedStepServesOneRequest : Prop :=
  (∀ (s : State) (ans : WriteAns) (r g b rf gf bf : Byte) (table : Vector Byte 256),
    s.params.clkBit ≠ s.params.datBit →
    (nextInput s).turn = .led ans → s.status = .running → s.mbox = .full r g b →
    s.gamma = some table → table[scaled r s.brt]? = some rf → table[scaled g s.brt]? = some gf →
    table[scaled b s.brt]? = some bf →
    ∃ t f, step s = .next t
      ∧ f = frameOf s.params s.snap
          [0x00#8, 0x00#8, 0xEF#8, bf, gf, rf, 0x00#8, 0x00#8]
      ∧ f.length = 128
      ∧ t = { takeInput s with
          mbox := .empty, frame := f
          snap := (s.snap &&& ~~~ pinMask s.params) ||| bitMask s.params.clkBit
          status := match ans with | .ok => .running | .fail => .faulted
          cause := match ans with | .ok => s.cause | .fail => .transport .write
          xfers := s.xfers ++ [⟨s.params.busAddr, s.params.regOut :: f, 0,
            match ans with | .ok => .ok [] | .fail => .fail⟩] })
    ∧ (∀ (s t : State) (ans : WriteAns), (nextInput s).turn = .led ans →
      ¬ (s.status = .running ∧ s.mboxFull = true) → step s = .next t →
      sameBlock s t ∧ t.xfers = s.xfers ∧ t.pi = s.pi ∧ t.results = s.results)

/-- LEDSTEP and POLLSTEP are not enabled outside RUNNING, nor LEDSTEP while MBOX is EMPTY: the turn
passes and the block is unchanged (60_exceptions.md R222, R223). That a turn offered to an agent
whose step is not enabled passes is the model's choice (log entry 13). -/
def Obligations.DisabledAgentsDoNothing : Prop :=
  ∀ (s : State) (ans : WriteAns) (rd : ReadAns),
    ((nextInput s).turn = .led ans → s.status ≠ .running ∨ s.mbox = .empty →
      step s = .next (takeInput s))
    ∧ ((nextInput s).turn = .poll rd → s.status ≠ .running → step s = .next (takeInput s))

/-- The constant part of every frame with the default pins, and which part carries which colour
(40_encoder.md R136, which the spec derives from R121 and R129). -/
def Obligations.FrameConstantPart : Prop :=
  ∀ (s t : State) (ans : WriteAns) (r g b : Byte), s.params.clkBit = 6 → s.params.datBit = 7 →
    s.snap &&& 0x3F#8 = 0#8 → (nextInput s).turn = .led ans → s.status = .running →
    s.mbox = .full r g b → step s = .next t →
    t.frame.take 32 = (List.replicate 16 [0x00#8, 0x40#8]).flatten
      ∧ (t.frame.drop 32).take 16
        = [0x80#8, 0xC0#8, 0x80#8, 0xC0#8, 0x80#8, 0xC0#8, 0x00#8, 0x40#8,
           0x80#8, 0xC0#8, 0x80#8, 0xC0#8, 0x80#8, 0xC0#8, 0x80#8, 0xC0#8]
      ∧ t.frame.drop 96 = (List.replicate 16 [0x00#8, 0x40#8]).flatten
      ∧ (t.frame.drop 48).take 16 = image s.params 0x00#8 (channel s.gamma s.brt b)
      ∧ (t.frame.drop 64).take 16 = image s.params 0x00#8 (channel s.gamma s.brt g)
      ∧ (t.frame.drop 80).take 16 = image s.params 0x00#8 (channel s.gamma s.brt r)

/-- No request is lost or overwritten (20_memory.md R74): until the LED agent's turn comes, or
reset, every step leaves a FULL mailbox as it is; and a step that fills an EMPTY one is a
completed SETCOLOR or HALT of the host. -/
def Obligations.NoRequestIsLost : Prop :=
  ∀ s t : State, step s = .next t → (∀ ans, (nextInput s).turn ≠ .led ans) →
    (nextInput s).turn ≠ .reset →
    (s.mbox ≠ .empty → t.mbox = s.mbox)
    ∧ (s.mbox = .empty → t.mbox ≠ .empty →
      ∃ cw r g b, s.program[s.pi]? = some cw
        ∧ (decode s.params.bench cw = .ok (.setcolor r g b)
          ∨ (decode s.params.bench cw = .ok .halt ∧ r = 0#8 ∧ g = 0#8 ∧ b = 0#8))
        ∧ t.mbox = .full r g b ∧ t.results = s.results ++ [.ok])

/-! ## Operations of unit DET -/

/-- SUBP (41_detector.md R171): an illegal button, NotRunning, RegistryFull, else a new PRESS
endpoint whose id NEXT_EP joins the end of PSUB[n]; nothing else changes. -/
def Obligations.SubpCreatesPressEndpoint : Prop :=
  (∀ (n : BitVec 3) (s : State), 4 < n.toNat → exec (.subp n) s = .next { s with
      results := s.results ++ [.err (.illegalCommand (0x03000000#32 ||| n.setWidth 32))]
      pi := s.pi + 1 })
    ∧ (∀ (b : Button) (s : State),
      (s.status ≠ .running → exec (.subp (BitVec.ofNat 3 b)) s = .next { s with
        results := s.results ++ [.err (.notRunning s.status s.cause)], pi := s.pi + 1 })
      ∧ (s.status = .running → s.nextEp = 65536 → exec (.subp (BitVec.ofNat 3 b)) s = .next { s with
        results := s.results ++ [.err .registryFull], pi := s.pi + 1 })
      ∧ (s.status = .running → s.nextEp < 65536 → s.ep.length = s.nextEp →
        ∃ t id, exec (.subp (BitVec.ofNat 3 b)) s = .next t ∧ id.toNat = s.nextEp
          ∧ t.ep[s.nextEp]? = some ⟨.press, b, []⟩
          ∧ t = { s with
              ep := s.ep ++ [⟨.press, b, []⟩], psub := s.psub.set b (s.psub[b] ++ [s.nextEp])
              nextEp := s.nextEp + 1, results := s.results ++ [.okEp id], pi := s.pi + 1 }))

/-- SUBR (41_detector.md R172): as SUBP, with a RELEASE endpoint and RSUB[n]. -/
def Obligations.SubrCreatesReleaseEndpoint : Prop :=
  (∀ (n : BitVec 3) (s : State), 4 < n.toNat → exec (.subr n) s = .next { s with
      results := s.results ++ [.err (.illegalCommand (0x04000000#32 ||| n.setWidth 32))]
      pi := s.pi + 1 })
    ∧ (∀ (b : Button) (s : State),
      (s.status ≠ .running → exec (.subr (BitVec.ofNat 3 b)) s = .next { s with
        results := s.results ++ [.err (.notRunning s.status s.cause)], pi := s.pi + 1 })
      ∧ (s.status = .running → s.nextEp = 65536 → exec (.subr (BitVec.ofNat 3 b)) s = .next { s with
        results := s.results ++ [.err .registryFull], pi := s.pi + 1 })
      ∧ (s.status = .running → s.nextEp < 65536 → s.ep.length = s.nextEp →
        ∃ t id, exec (.subr (BitVec.ofNat 3 b)) s = .next t ∧ id.toNat = s.nextEp
          ∧ t.ep[s.nextEp]? = some ⟨.release, b, []⟩
          ∧ t = { s with
              ep := s.ep ++ [⟨.release, b, []⟩], rsub := s.rsub.set b (s.rsub[b] ++ [s.nextEp])
              nextEp := s.nextEp + 1, results := s.results ++ [.okEp id], pi := s.pi + 1 }))

/-- RECV (41_detector.md R173): NotRunning, IllegalCommand for an id not below NEXT_EP, a hold while
the queue is empty, else the oldest payload is taken and answered; the other payloads, the other
endpoints and every other register are as before. -/
def Obligations.RecvTakesTheOldest : Prop :=
  ∀ (e : EpId) (s : State),
    (s.status ≠ .running → exec (.recv e) s = .next { s with
      results := s.results ++ [.err (.notRunning s.status s.cause)], pi := s.pi + 1 })
    ∧ (s.status = .running → s.nextEp ≤ e.toNat → exec (.recv e) s = .next { s with
      results := s.results ++ [.err (.illegalCommand (0x0600#16 ++ e))], pi := s.pi + 1 })
    ∧ (∀ x, s.status = .running → e.toNat < s.nextEp → s.ep[e.toNat]? = some x → x.q = [] →
      exec (.recv e) s = .next s)
    ∧ (∀ x p rest, s.status = .running → e.toNat < s.nextEp → s.ep[e.toNat]? = some x →
      x.q = p :: rest → x.kind = .press →
      exec (.recv e) s = .next { s with
        ep := s.ep.set e.toNat { x with q := rest }
        results := s.results ++ [.okPress], pi := s.pi + 1 })
    ∧ (∀ x d rest, s.status = .running → e.toNat < s.nextEp → s.ep[e.toNat]? = some x →
      x.q = .duration d :: rest → x.kind = .release →
      exec (.recv e) s = .next { s with
        ep := s.ep.set e.toNat { x with q := rest }
        results := s.results ++ [.okRelease d], pi := s.pi + 1 })

/-- SAMPLE (41_detector.md R164): refused with BENCH false, refused outside RUNNING, else one poll
cycle with the operand as sample at time NOW, and the result ok. -/
def Obligations.SampleIsOnePollCycle : Prop :=
  (∀ (v : Byte) (s : State), s.params.bench = false → exec (.sample v) s = .next { s with
      results := s.results ++ [.err (.illegalCommand (0x110000#24 ++ v))], pi := s.pi + 1 })
    ∧ (∀ (v : Byte) (s : State), s.params.bench = true → s.status ≠ .running →
      exec (.sample v) s = .next { s with
        results := s.results ++ [.err (.notRunning s.status s.cause)], pi := s.pi + 1 })
    ∧ (∀ (v : Byte) (s : State), Inv s → s.params.bench = true → s.status = .running →
      ∃ t, cycle v s.now s t ∧ exec (.sample v) s = .next { t with
        results := s.results ++ [.ok], pi := s.pi + 1 })

/-- POLLSTEP (41_detector.md R163): a read that succeeds gives one poll cycle with the byte read, at
the step's one reading of NOW, and one transaction; a failed read enters FAULTED with (3, READ), no
button is evaluated and nothing else changes. Where it is not enabled no register changes and no
transaction is issued. -/
def Obligations.PollStepReadsOnce : Prop :=
  (∀ (s : State) (v : Byte), Inv s → (nextInput s).turn = .poll (.ok v) → s.status = .running →
    ∃ t, cycle v (nextInput s).now (takeInput s) t ∧ step s = .next { t with
      xfers := s.xfers ++ [⟨s.params.busAddr, [s.params.regIn], 1, .ok [v]⟩] })
    ∧ (∀ s : State, (nextInput s).turn = .poll .fail → s.status = .running →
      step s = .next { takeInput s with
        status := .faulted, cause := .transport .read
        xfers := s.xfers ++ [⟨s.params.busAddr, [s.params.regIn], 1, .fail⟩] })
    ∧ (∀ (s t : State) (ans : ReadAns), (nextInput s).turn = .poll ans → s.status ≠ .running →
      step s = .next t → sameBlock s t ∧ t.xfers = s.xfers ∧ t.pi = s.pi ∧ t.results = s.results)

/-- Bits 7 to 5 of a sample take no part in any rule (41_detector.md R176, which the spec derives
from R166): two samples that agree in bits 4 to 0 have the same effect, for SAMPLE and for
POLLSTEP. -/
def Obligations.UpperSampleBitsIgnored : Prop :=
  ∀ (v v' : Byte) (s : State), (∀ b : Button, v.getLsbD b = v'.getLsbD b) →
    (s.params.bench = true → exec (.sample v) s = exec (.sample v') s)
    ∧ sameBlock (pollStep (.ok v) s) (pollStep (.ok v') s)

/-- The source's sequence properties (41_detector.md R178, which the spec derives from R161, R166
and R167): with one press and one release endpoint of button b, both empty, samples 0, 1<<b give
one PRESS notification and no release; a further sample 0 gives one RELEASE whose duration is
the difference of the two cycles' times, which lies in [POLL_INTERVAL, 2 * POLL_INTERVAL)
exactly when the clock spaces the cycles so. -/
def Obligations.PressThenReleaseSequence : Prop :=
  ∀ (s : State) (b : Button) (p r : Nat) (t1 t2 t3 interval : Time), Inv s →
    s.params.bench = true → s.status = .running → s.pressed[b] = false →
    s.psub[b] = [p] → s.rsub[b] = [r] → s.ep[p]? = some ⟨.press, b, []⟩ →
    s.ep[r]? = some ⟨.release, b, []⟩ → s.pollInterval = some interval →
    notBefore t2 t3 →
    ∃ s1 s2 s3, exec (.sample 0x00#8) { s with now := t1 } = .next s1
      ∧ exec (.sample (1#8 <<< b.val)) { s1 with now := t2 } = .next s2
      ∧ exec (.sample 0x00#8) { s2 with now := t3 } = .next s3
      ∧ s2.ep[p]? = some ⟨.press, b, [.unit]⟩ ∧ s2.ep[r]? = some ⟨.release, b, []⟩
      ∧ s3.ep[p]? = some ⟨.press, b, [.unit]⟩
      ∧ s3.ep[r]? = some ⟨.release, b, [.duration (t3 - t2)]⟩
      ∧ ((interval.toNat ≤ (t3 - t2).toNat ∧ (t3 - t2).toNat < 2 * interval.toNat)
        ↔ (spaced interval t2 t3 ∧ t3.toNat < t2.toNat + 2 * interval.toNat))

/-! ## Errors, holds, faults -/

/-- Every operation outside RUNNING is refused with (STATUS, CAUSE) and changes nothing
(60_exceptions.md R206). -/
def Obligations.NotRunningRefusesAll : Prop :=
  ∀ (i : Instr) (s : State), i.accepted s.params.bench = true → s.status ≠ .running →
    exec i s = .next { s with
      results := s.results ++ [.err (.notRunning s.status s.cause)], pi := s.pi + 1 }

/-- The first check of every operation (60_exceptions.md R212 (1)): an operand or a bench operation
the block does not accept is IllegalCommand with the operation's word, whatever STATUS is. -/
def Obligations.IllegalComesFirst : Prop :=
  ∀ (i : Instr) (s : State), i.accepted s.params.bench = false →
    exec i s = .next { s with
      results := s.results ++ [.err (.illegalCommand (encode i))], pi := s.pi + 1 }

/-- There are two holds (60_exceptions.md R232), and they leave no trace: an operation leaves the
state as it is exactly when SETCOLOR or HALT finds MBOX FULL, or RECV finds its endpoint's queue
empty, in RUNNING. -/
def Obligations.TwoHoldsOnly : Prop :=
  ∀ (i : Instr) (s : State), Inv s →
    (exec i s = .next s ↔ s.status = .running ∧
      ((s.mbox ≠ .empty ∧ (i = .halt ∨ ∃ r g b, i = .setcolor r g b))
        ∨ ∃ e x, i = .recv e ∧ e.toNat < s.nextEp ∧ s.ep[e.toNat]? = some x ∧ x.q = []))

/-- Every operation completes or holds: under the invariant `exec` answers a next state. -/
def Obligations.EveryOperationAnswers : Prop :=
  ∀ (i : Instr) (s : State), Inv s → ∃ t, exec i s = .next t

/-- A held operation is reconsidered at a fault (60_exceptions.md R215), and completes with
NotRunning and no other effect. After a failed button read MBOX keeps its request; after a failed
LED write, which needs one in MBOX, that request has been consumed. The queues are as they were. -/
def Obligations.HeldOperationSeesTheFault : Prop :=
  (∀ (s : State) (cw : Word) (i : Instr) (n1 n2 n3 : Time) (rest : List Input), Inv s →
    s.status = .running → s.program[s.pi]? = some cw → decode s.params.bench cw = .ok i →
    exec i { s with now := n1, env := s.env.tail, steps := s.steps + 1 }
      = .next { s with now := n1, env := s.env.tail, steps := s.steps + 1 } →
    s.env = ⟨n1, .host⟩ :: ⟨n2, .poll .fail⟩ :: ⟨n3, .host⟩ :: rest →
    ∃ s1 s2 s3, step s = .next s1 ∧ step s1 = .next s2 ∧ step s2 = .next s3
      ∧ s1.pi = s.pi ∧ s2.pi = s.pi ∧ s3.pi = s.pi + 1
      ∧ s1.results = s.results ∧ s2.results = s.results
      ∧ s3.results = s.results ++ [.err (.notRunning .faulted (.transport .read))]
      ∧ s3.mbox = s.mbox ∧ s3.ep = s.ep)
    ∧ (∀ (s : State) (cw : Word) (i : Instr) (n1 n2 n3 : Time) (rest : List Input), Inv s →
      s.status = .running → s.mbox ≠ .empty → s.program[s.pi]? = some cw →
      decode s.params.bench cw = .ok i →
      exec i { s with now := n1, env := s.env.tail, steps := s.steps + 1 }
        = .next { s with now := n1, env := s.env.tail, steps := s.steps + 1 } →
      s.env = ⟨n1, .host⟩ :: ⟨n2, .led .fail⟩ :: ⟨n3, .host⟩ :: rest →
      ∃ s1 s2 s3, step s = .next s1 ∧ step s1 = .next s2 ∧ step s2 = .next s3
        ∧ s1.pi = s.pi ∧ s2.pi = s.pi ∧ s3.pi = s.pi + 1
        ∧ s1.results = s.results ∧ s2.results = s.results
        ∧ s3.results = s.results ++ [.err (.notRunning .faulted (.transport .write))]
        ∧ s1.mbox = s.mbox ∧ s3.mbox = .empty ∧ s3.ep = s.ep)

/-- The terminal state (60_exceptions.md R214): in FAULTED and in SETUP_FAILED nothing but reset
changes a register of the block, no transaction is issued, and every operation is refused with
NotRunning. -/
def Obligations.TerminalUntilReset : Prop :=
  ∀ s t : State, s.status = .faulted ∨ s.status = .setupFailed → step s = .next t →
    (nextInput s).turn ≠ .reset →
    sameBlock s t ∧ t.xfers = s.xfers
      ∧ (∀ cw i, (nextInput s).turn = .host → s.program[s.pi]? = some cw →
        decode s.params.bench cw = .ok i →
        t.results = s.results ++ [.err (.notRunning s.status s.cause)] ∧ t.pi = s.pi + 1)
      ∧ (t.results = s.results
        ∨ t.results = s.results ++ [.err (.notRunning s.status s.cause)]
        ∨ ∃ cw, s.program[s.pi]? = some cw ∧ legalWord s.params.bench cw = false
          ∧ t.results = s.results ++ [.err (.illegalCommand cw)])

/-- STATUS moves only along RESET, CONFIGURED, RUNNING, with the exits to SETUP_FAILED from
CONFIGURED and to FAULTED from RUNNING, or back to RESET by reset (10_state.md R36). -/
def Obligations.StatusFollowsItsPath : Prop :=
  ∀ s t : State, step s = .next t →
    t.status = s.status
      ∨ (s.status = .reset ∧ t.status = .configured ∧ ∃ g p, (nextInput s).turn = .configure g p)
      ∨ (s.status = .configured ∧ (t.status = .running ∨ t.status = .setupFailed)
        ∧ ∃ a0 a1 a2, (nextInput s).turn = .init a0 a1 a2)
      ∨ (s.status = .running ∧ t.status = .faulted
        ∧ ((nextInput s).turn = .led .fail ∨ (nextInput s).turn = .poll .fail))
      ∨ (t.status = .reset ∧ (nextInput s).turn = .reset)

/-! ## Reset and boot -/

/-- The reset table (10_state.md R45). -/
def Obligations.ResetTable : Prop :=
  State.reset.status = .reset ∧ State.reset.cause = .none ∧ State.reset.snap = 0x00#8
    ∧ State.reset.frame = [] ∧ State.reset.brt = 255#8 ∧ State.reset.mbox = .empty
    ∧ (∀ b : Button, State.reset.pressed[b] = false ∧ State.reset.t0[b] = none
      ∧ State.reset.psub[b] = [] ∧ State.reset.rsub[b] = [])
    ∧ State.reset.ep = [] ∧ State.reset.nextEp = 0 ∧ State.reset.gamma = none
    ∧ State.reset.pollInterval = none ∧ State.reset.lastPoll = none ∧ State.reset.pi = 0

/-- Reset (70_reset_and_hazards.md R240): from any state every register is at its reset value and
the program index is 0; no transaction is issued. -/
def Obligations.ResetFromAnyState : Prop :=
  ∀ s : State, (nextInput s).turn = .reset →
    ∃ t, step s = .next t ∧ sameBlock t State.reset ∧ t.pi = 0 ∧ t.xfers = s.xfers

/-- CONFIGURE (70_reset_and_hazards.md R244): a table of a length other than 256 is refused and
nothing changes; else the table and the interval, or their defaults, are installed and STATUS is
CONFIGURED; no transaction is issued. The refusal outside RESET, a case R244 calls outside the model,
is the model's choice (log entry 9). -/
def Obligations.ConfigureInstallsOrRefuses : Prop :=
  ∀ (s : State) (g : Option (List Byte)) (p : Option Time), (nextInput s).turn = .configure g p →
    (s.status ≠ .reset → step s = .refused .configureOutsideReset)
    ∧ (∀ l, s.status = .reset → g = some l → l.length ≠ 256 → step s = .next { takeInput s with
        bootReturns := s.bootReturns ++ [.failed (.configurationError "gamma_table")] })
    ∧ (∀ l, s.status = .reset → g = some l → l.length = 256 →
      ∃ table : Vector Byte 256, table.toList = l ∧ step s = .next { takeInput s with
        gamma := some table, pollInterval := some (p.getD 50000000#64), status := .configured
        bootReturns := s.bootReturns ++ [.done] })
    ∧ (s.status = .reset → g = none → step s = .next { takeInput s with
        gamma := some s.params.gammaDefault, pollInterval := some (p.getD 50000000#64)
        status := .configured, bootReturns := s.bootReturns ++ [.done] })

/-- INIT (70_reset_and_hazards.md R246, R247): three writes in order, direction, polarity, output;
the first failure stops it in SETUP_FAILED with (2, index); three successes give RUNNING. That all of
it is one step is the model's choice (log entry 14). -/
def Obligations.InitWritesInOrder : Prop :=
  ∀ (s : State) (a0 a1 a2 : WriteAns), (nextInput s).turn = .init a0 a1 a2 →
    s.status = .configured →
    let x := fun (w : List Byte) (o : XferOutcome) => Xfer.mk s.params.busAddr w 0 o
    let w0 := [s.params.regCfg, s.params.dirMask]
    let w1 := [s.params.regPol, s.params.polVal]
    let w2 := [s.params.regOut, 0x00#8]
    (a0 = .fail → step s = .next { takeInput s with
        status := .setupFailed, cause := .setup 0, xfers := s.xfers ++ [x w0 .fail]
        bootReturns := s.bootReturns ++ [.failed (.setupError 0)] })
    ∧ (a0 = .ok → a1 = .fail → step s = .next { takeInput s with
        status := .setupFailed, cause := .setup 1
        xfers := s.xfers ++ [x w0 (.ok []), x w1 .fail]
        bootReturns := s.bootReturns ++ [.failed (.setupError 1)] })
    ∧ (a0 = .ok → a1 = .ok → a2 = .fail → step s = .next { takeInput s with
        status := .setupFailed, cause := .setup 2
        xfers := s.xfers ++ [x w0 (.ok []), x w1 (.ok []), x w2 .fail]
        bootReturns := s.bootReturns ++ [.failed (.setupError 2)] })
    ∧ (a0 = .ok → a1 = .ok → a2 = .ok → step s = .next { takeInput s with
        status := .running
        xfers := s.xfers ++ [x w0 (.ok []), x w1 (.ok []), x w2 (.ok [])]
        bootReturns := s.bootReturns ++ [.done] })

/-- Before RUNNING nothing but STATUS, GAMMA and POLL_INTERVAL has moved from its reset value
(70_reset_and_hazards.md R241, R248): it holds at reset and every step keeps it. -/
def Obligations.NothingMovesBeforeRunning : Prop :=
  UntouchedBeforeRunning State.reset
    ∧ ∀ s t : State, UntouchedBeforeRunning s → step s = .next t → UntouchedBeforeRunning t

/-! ## Rules of the whole machine -/

/-- The conditions of 10_state.md R41, each with what sets it and what clears it (reset apart), and
each false after reset. -/
def Obligations.ConditionsChangeAsListed : Prop :=
  (∀ s t : State, Inv s → step s = .next t → (nextInput s).turn ≠ .reset →
    (∀ b : Button,
      (s.isPressed b = false → t.isPressed b = true →
        ∃ v : Byte, evaluates s v ∧ v.getLsbD b = true)
      ∧ (s.isPressed b = true → t.isPressed b = false →
        ∃ v : Byte, evaluates s v ∧ v.getLsbD b = false))
    ∧ (s.mboxFull = false → t.mboxFull = true →
      hostRuns s .halt ∨ ∃ r g b, hostRuns s (.setcolor r g b))
    ∧ (s.mboxFull = true → t.mboxFull = false → ∃ ans, (nextInput s).turn = .led ans)
    ∧ (∀ i : Nat,
      (s.epFull i = false → t.epFull i = true → ∃ v, evaluates s v)
      ∧ (s.epFull i = true → t.epFull i = false → ∃ e, hostRuns s (.recv e) ∧ e.toNat = i)
      ∧ (s.epNonempty i = false → t.epNonempty i = true → ∃ v, evaluates s v)
      ∧ (s.epNonempty i = true → t.epNonempty i = false →
        ∃ e, hostRuns s (.recv e) ∧ e.toNat = i))
    ∧ (s.isRunning = false → t.isRunning = true →
      (nextInput s).turn = .init .ok .ok .ok)
    ∧ (s.isRunning = true → t.isRunning = false →
      (nextInput s).turn = .led .fail ∨ (nextInput s).turn = .poll .fail))
    ∧ (∀ (b : Button) (i : Nat), State.reset.isPressed b = false ∧ State.reset.mboxFull = false
      ∧ State.reset.epFull i = false ∧ State.reset.epNonempty i = false
      ∧ State.reset.isRunning = false)

/-- The invariant holds after reset. -/
def Obligations.ResetMeetsTheInvariant : Prop := Inv State.reset

/-- Every step, by whichever agent and with whatever inputs, keeps the invariant of 10_state.md R44. -/
def Obligations.StepKeepsTheInvariant : Prop :=
  ∀ s t : State, Inv s → step s = .next t → Inv t

/-- Under the invariant no step faults, and a step is refused only for a CONFIGURE or an INIT in the
wrong STATUS (log entries 8 and 9). -/
def Obligations.StepNeverFaults : Prop :=
  ∀ s : State, Inv s →
    (∃ t, step s = .next t)
    ∨ (step s = .refused .configureOutsideReset ∧ s.status ≠ .reset
      ∧ ∃ g p, (nextInput s).turn = .configure g p)
    ∨ (step s = .refused .initOutsideConfigured ∧ s.status ≠ .configured
      ∧ ∃ a0 a1 a2, (nextInput s).turn = .init a0 a1 a2)

/-- Ownership (60_exceptions.md R218): with BENCH false no operation writes SNAP, FRAME, PRESSED,
T0, GAMMA, POLL_INTERVAL, STATUS or CAUSE, nor LAST_POLL. -/
def Obligations.HostCannotWriteInternals : Prop :=
  ∀ (i : Instr) (s t : State), s.params.bench = false → exec i s = .next t →
    t.snap = s.snap ∧ t.frame = s.frame ∧ t.pressed = s.pressed ∧ t.t0 = s.t0
      ∧ t.gamma = s.gamma ∧ t.pollInterval = s.pollInterval ∧ t.status = s.status
      ∧ t.cause = s.cause ∧ t.lastPoll = s.lastPoll

/-- The two agents never touch each other's state (10_state.md R43): the LED agent leaves the
detector, the registry and the configuration alone, the poll agent leaves the colour path, the
encoder and the registry alone; neither touches the host's program. -/
def Obligations.AgentsShareNoState : Prop :=
  ∀ s t : State, step s = .next t →
    ((∃ ans, (nextInput s).turn = .led ans) →
      t.pressed = s.pressed ∧ t.t0 = s.t0 ∧ t.psub = s.psub ∧ t.rsub = s.rsub ∧ t.ep = s.ep
        ∧ t.nextEp = s.nextEp ∧ t.gamma = s.gamma ∧ t.pollInterval = s.pollInterval
        ∧ t.lastPoll = s.lastPoll ∧ t.brt = s.brt ∧ t.program = s.program ∧ t.pi = s.pi
        ∧ t.results = s.results)
    ∧ ((∃ ans, (nextInput s).turn = .poll ans) →
      t.snap = s.snap ∧ t.frame = s.frame ∧ t.brt = s.brt ∧ t.mbox = s.mbox ∧ t.psub = s.psub
        ∧ t.rsub = s.rsub ∧ t.nextEp = s.nextEp ∧ t.gamma = s.gamma
        ∧ t.pollInterval = s.pollInterval ∧ t.program = s.program ∧ t.pi = s.pi
        ∧ t.results = s.results)

/-- A poll tick and a pending colour request at the same moment: the two orders commute
(60_exceptions.md R211 (c)). The transport sees the LED write (none where MBOX is EMPTY) and the
button read in the other order. -/
def Obligations.LedAndPollCommute : Prop :=
  ∀ (s : State) (n1 n2 : Time) (v : Byte) (rest : List Input), s.status = .running →
    ∃ a a' b b',
      let ledWrite : List Xfer :=
        if s.mboxFull then [⟨s.params.busAddr, s.params.regOut :: a.frame, 0, .ok []⟩] else []
      let buttonRead : List Xfer := [⟨s.params.busAddr, [s.params.regIn], 1, .ok [v]⟩]
      step { s with env := ⟨n1, .led .ok⟩ :: ⟨n2, .poll (.ok v)⟩ :: rest } = .next a
      ∧ step a = .next a'
      ∧ step { s with env := ⟨n2, .poll (.ok v)⟩ :: ⟨n1, .led .ok⟩ :: rest } = .next b
      ∧ step b = .next b'
      ∧ sameBlock a' b'
      ∧ a.xfers = s.xfers ++ ledWrite ∧ a'.xfers = s.xfers ++ ledWrite ++ buttonRead
      ∧ b.xfers = s.xfers ++ buttonRead ∧ b'.xfers = s.xfers ++ buttonRead ++ ledWrite

/-- The gamma table is immutable after CONFIGURE, and so is the poll interval (20_memory.md R67,
10_state.md R33, R34): no step but reset changes them once STATUS is not RESET. -/
def Obligations.TableIsImmutable : Prop :=
  ∀ s t : State, step s = .next t → s.status ≠ .reset → (nextInput s).turn ≠ .reset →
    t.gamma = s.gamma ∧ t.pollInterval = s.pollInterval

/-- The registry is append-only and an endpoint is never destroyed (10_state.md R30, R31): until
reset, every sequence only grows at its end, and an endpoint keeps its kind and button. -/
def Obligations.RegistryOnlyGrows : Prop :=
  ∀ s t : State, step s = .next t → (nextInput s).turn ≠ .reset →
    (∀ b : Button, s.psub[b] <+: t.psub[b] ∧ s.rsub[b] <+: t.rsub[b])
    ∧ s.nextEp ≤ t.nextEp
    ∧ (∀ (i : Nat) (x : Endpoint), s.ep[i]? = some x →
      ∃ y, t.ep[i]? = some y ∧ y.kind = x.kind ∧ y.btn = x.btn)

/-- The program index advances by exactly 1 when an operation completes, with its result, and not at
all otherwise; only the host's turn completes one (10_state.md R27). -/
def Obligations.IndexAdvancesWithResults : Prop :=
  ∀ s t : State, step s = .next t → (nextInput s).turn ≠ .reset →
    t.program = s.program
    ∧ ((t.pi = s.pi ∧ t.results = s.results)
      ∨ ((nextInput s).turn = .host ∧ t.pi = s.pi + 1 ∧ s.pi < s.program.length
        ∧ ∃ r, t.results = s.results ++ [r]))

/-- The block issues exactly five shapes of transaction, all addressed to BUS_ADDR (20_memory.md
R62): every transaction a step adds is one of them, the LED write carrying the 128 snapshots that
the step leaves in FRAME, and one that succeeds returns exactly the bytes asked for. -/
def Obligations.FiveShapesOfTransaction : Prop :=
  ∀ s t : State, step s = .next t →
    ∃ new, t.xfers = s.xfers ++ new ∧ ∀ x ∈ new, fiveShapes s.params t.frame x

/-- The parameters are fixed for the machine: no step changes one (log entry 3). -/
def Obligations.ParametersNeverChange : Prop :=
  ∀ s t : State, step s = .next t → t.params = s.params

/-- MBOX is a FIFO of exactly the requests issued (20_memory.md R74): over any run without reset,
from any state of the invariant, the colours accepted are served in order, one LED write each,
none lost and none merged, each resolved with the brightness current at its LEDSTEP; what is not
yet served is the one in MBOX. A SETCOLOR or HALT whose predecessor is still in MBOX holds. -/
def Obligations.LedWritesAreTheRequestsInOrder : Prop :=
  (∀ (s t : State) (cs : List Colour) (ls : List Byte), Inv s → Run s cs ls t →
    ∃ served : List Colour, pending s ++ cs = served ++ pending t ∧ served.length = ls.length
      ∧ ledWrites s t = List.zipWith (colourFrame s.params t.gamma) served ls)
    ∧ (∀ (s : State) (r g b : Byte), s.status = .running → s.mbox ≠ .empty →
      exec (.setcolor r g b) s = .next s ∧ exec .halt s = .next s)

/-- What the two fairness assumptions of 60_exceptions.md R226 give in an endless run. (a) A request
in MBOX in RUNNING stays there, in RUNNING, up to some step, and that step is either the LEDSTEP that
takes it or one that leaves RUNNING. (b) From any point on, either some state is not RUNNING, or some
step is a POLLSTEP in RUNNING, which sets LAST_POLL to its time or enters FAULTED with (3, READ). -/
def Obligations.FairRunsMakeProgress : Prop :=
  ∀ (run : Nat → State) (input : Nat → Input), FairRun run input →
    (∀ n, ledEnabled (run n) →
      ∃ m, n ≤ m
        ∧ (∀ k, n ≤ k → k ≤ m → (run k).status = .running ∧ (run k).mbox = (run n).mbox)
        ∧ (((∃ ans, (input m).turn = .led ans) ∧ (run (m + 1)).mbox = .empty)
          ∨ (run (m + 1)).status ≠ .running))
    ∧ (∀ n, ∃ m, n ≤ m ∧ ((run m).status ≠ .running
      ∨ ((run m).status = .running ∧ (∃ ans, (input m).turn = .poll ans)
        ∧ ((run (m + 1)).lastPoll = some (input m).now
          ∨ ((run (m + 1)).status = .faulted ∧ (run (m + 1)).cause = .transport .read)))))
end

