-- ==== Sys2Proof/Laws/State.lean ====
section
/-! SUPPORT. One lemma per field per named update of the state, each true by rfl. -/

namespace Sys2Proof.Machine

/-! ## complete -/

@[simp] theorem complete_status (s : State) (r : Result) : (complete s r).status = s.status := rfl
@[simp] theorem complete_cause (s : State) (r : Result) : (complete s r).cause = s.cause := rfl
@[simp] theorem complete_snap (s : State) (r : Result) : (complete s r).snap = s.snap := rfl
@[simp] theorem complete_frame (s : State) (r : Result) : (complete s r).frame = s.frame := rfl
@[simp] theorem complete_brt (s : State) (r : Result) : (complete s r).brt = s.brt := rfl
@[simp] theorem complete_mbox (s : State) (r : Result) : (complete s r).mbox = s.mbox := rfl
@[simp] theorem complete_pressed (s : State) (r : Result) :
    (complete s r).pressed = s.pressed := rfl
@[simp] theorem complete_t0 (s : State) (r : Result) : (complete s r).t0 = s.t0 := rfl
@[simp] theorem complete_psub (s : State) (r : Result) : (complete s r).psub = s.psub := rfl
@[simp] theorem complete_rsub (s : State) (r : Result) : (complete s r).rsub = s.rsub := rfl
@[simp] theorem complete_ep (s : State) (r : Result) : (complete s r).ep = s.ep := rfl
@[simp] theorem complete_nextEp (s : State) (r : Result) : (complete s r).nextEp = s.nextEp := rfl
@[simp] theorem complete_gamma (s : State) (r : Result) : (complete s r).gamma = s.gamma := rfl
@[simp] theorem complete_pollInterval (s : State) (r : Result) :
    (complete s r).pollInterval = s.pollInterval := rfl
@[simp] theorem complete_lastPoll (s : State) (r : Result) :
    (complete s r).lastPoll = s.lastPoll := rfl
@[simp] theorem complete_program (s : State) (r : Result) :
    (complete s r).program = s.program := rfl
@[simp] theorem complete_pi (s : State) (r : Result) : (complete s r).pi = s.pi + 1 := rfl
@[simp] theorem complete_now (s : State) (r : Result) : (complete s r).now = s.now := rfl
@[simp] theorem complete_params (s : State) (r : Result) : (complete s r).params = s.params := rfl
@[simp] theorem complete_env (s : State) (r : Result) : (complete s r).env = s.env := rfl
@[simp] theorem complete_steps (s : State) (r : Result) : (complete s r).steps = s.steps := rfl
@[simp] theorem complete_results (s : State) (r : Result) :
    (complete s r).results = s.results ++ [r] := rfl
@[simp] theorem complete_bootReturns (s : State) (r : Result) :
    (complete s r).bootReturns = s.bootReturns := rfl
@[simp] theorem complete_xfers (s : State) (r : Result) : (complete s r).xfers = s.xfers := rfl

/-! ## faultEntry -/

@[simp] theorem faultEntry_status (c : Cause) (s : State) :
    (faultEntry c s).status = faultStatus c := rfl
@[simp] theorem faultEntry_cause (c : Cause) (s : State) : (faultEntry c s).cause = c := rfl
@[simp] theorem faultEntry_snap (c : Cause) (s : State) : (faultEntry c s).snap = s.snap := rfl
@[simp] theorem faultEntry_frame (c : Cause) (s : State) : (faultEntry c s).frame = s.frame := rfl
@[simp] theorem faultEntry_brt (c : Cause) (s : State) : (faultEntry c s).brt = s.brt := rfl
@[simp] theorem faultEntry_mbox (c : Cause) (s : State) : (faultEntry c s).mbox = s.mbox := rfl
@[simp] theorem faultEntry_pressed (c : Cause) (s : State) :
    (faultEntry c s).pressed = s.pressed := rfl
@[simp] theorem faultEntry_t0 (c : Cause) (s : State) : (faultEntry c s).t0 = s.t0 := rfl
@[simp] theorem faultEntry_psub (c : Cause) (s : State) : (faultEntry c s).psub = s.psub := rfl
@[simp] theorem faultEntry_rsub (c : Cause) (s : State) : (faultEntry c s).rsub = s.rsub := rfl
@[simp] theorem faultEntry_ep (c : Cause) (s : State) : (faultEntry c s).ep = s.ep := rfl
@[simp] theorem faultEntry_nextEp (c : Cause) (s : State) :
    (faultEntry c s).nextEp = s.nextEp := rfl
@[simp] theorem faultEntry_gamma (c : Cause) (s : State) : (faultEntry c s).gamma = s.gamma := rfl
@[simp] theorem faultEntry_pollInterval (c : Cause) (s : State) :
    (faultEntry c s).pollInterval = s.pollInterval := rfl
@[simp] theorem faultEntry_lastPoll (c : Cause) (s : State) :
    (faultEntry c s).lastPoll = s.lastPoll := rfl
@[simp] theorem faultEntry_program (c : Cause) (s : State) :
    (faultEntry c s).program = s.program := rfl
@[simp] theorem faultEntry_pi (c : Cause) (s : State) : (faultEntry c s).pi = s.pi := rfl
@[simp] theorem faultEntry_now (c : Cause) (s : State) : (faultEntry c s).now = s.now := rfl
@[simp] theorem faultEntry_params (c : Cause) (s : State) :
    (faultEntry c s).params = s.params := rfl
@[simp] theorem faultEntry_env (c : Cause) (s : State) : (faultEntry c s).env = s.env := rfl
@[simp] theorem faultEntry_steps (c : Cause) (s : State) : (faultEntry c s).steps = s.steps := rfl
@[simp] theorem faultEntry_results (c : Cause) (s : State) :
    (faultEntry c s).results = s.results := rfl
@[simp] theorem faultEntry_bootReturns (c : Cause) (s : State) :
    (faultEntry c s).bootReturns = s.bootReturns := rfl
@[simp] theorem faultEntry_xfers (c : Cause) (s : State) : (faultEntry c s).xfers = s.xfers := rfl

/-! ## xfer -/

@[simp] theorem xfer_status (w : List Byte) (n : Nat) (o : XferOutcome) (s : State) :
    (xfer w n o s).status = s.status := rfl
@[simp] theorem xfer_cause (w : List Byte) (n : Nat) (o : XferOutcome) (s : State) :
    (xfer w n o s).cause = s.cause := rfl
@[simp] theorem xfer_snap (w : List Byte) (n : Nat) (o : XferOutcome) (s : State) :
    (xfer w n o s).snap = s.snap := rfl
@[simp] theorem xfer_frame (w : List Byte) (n : Nat) (o : XferOutcome) (s : State) :
    (xfer w n o s).frame = s.frame := rfl
@[simp] theorem xfer_brt (w : List Byte) (n : Nat) (o : XferOutcome) (s : State) :
    (xfer w n o s).brt = s.brt := rfl
@[simp] theorem xfer_mbox (w : List Byte) (n : Nat) (o : XferOutcome) (s : State) :
    (xfer w n o s).mbox = s.mbox := rfl
@[simp] theorem xfer_pressed (w : List Byte) (n : Nat) (o : XferOutcome) (s : State) :
    (xfer w n o s).pressed = s.pressed := rfl
@[simp] theorem xfer_t0 (w : List Byte) (n : Nat) (o : XferOutcome) (s : State) :
    (xfer w n o s).t0 = s.t0 := rfl
@[simp] theorem xfer_psub (w : List Byte) (n : Nat) (o : XferOutcome) (s : State) :
    (xfer w n o s).psub = s.psub := rfl
@[simp] theorem xfer_rsub (w : List Byte) (n : Nat) (o : XferOutcome) (s : State) :
    (xfer w n o s).rsub = s.rsub := rfl
@[simp] theorem xfer_ep (w : List Byte) (n : Nat) (o : XferOutcome) (s : State) :
    (xfer w n o s).ep = s.ep := rfl
@[simp] theorem xfer_nextEp (w : List Byte) (n : Nat) (o : XferOutcome) (s : State) :
    (xfer w n o s).nextEp = s.nextEp := rfl
@[simp] theorem xfer_gamma (w : List Byte) (n : Nat) (o : XferOutcome) (s : State) :
    (xfer w n o s).gamma = s.gamma := rfl
@[simp] theorem xfer_pollInterval (w : List Byte) (n : Nat) (o : XferOutcome) (s : State) :
    (xfer w n o s).pollInterval = s.pollInterval := rfl
@[simp] theorem xfer_lastPoll (w : List Byte) (n : Nat) (o : XferOutcome) (s : State) :
    (xfer w n o s).lastPoll = s.lastPoll := rfl
@[simp] theorem xfer_program (w : List Byte) (n : Nat) (o : XferOutcome) (s : State) :
    (xfer w n o s).program = s.program := rfl
@[simp] theorem xfer_pi (w : List Byte) (n : Nat) (o : XferOutcome) (s : State) :
    (xfer w n o s).pi = s.pi := rfl
@[simp] theorem xfer_now (w : List Byte) (n : Nat) (o : XferOutcome) (s : State) :
    (xfer w n o s).now = s.now := rfl
@[simp] theorem xfer_params (w : List Byte) (n : Nat) (o : XferOutcome) (s : State) :
    (xfer w n o s).params = s.params := rfl
@[simp] theorem xfer_env (w : List Byte) (n : Nat) (o : XferOutcome) (s : State) :
    (xfer w n o s).env = s.env := rfl
@[simp] theorem xfer_steps (w : List Byte) (n : Nat) (o : XferOutcome) (s : State) :
    (xfer w n o s).steps = s.steps := rfl
@[simp] theorem xfer_results (w : List Byte) (n : Nat) (o : XferOutcome) (s : State) :
    (xfer w n o s).results = s.results := rfl
@[simp] theorem xfer_bootReturns (w : List Byte) (n : Nat) (o : XferOutcome) (s : State) :
    (xfer w n o s).bootReturns = s.bootReturns := rfl
@[simp] theorem xfer_xfers (w : List Byte) (n : Nat) (o : XferOutcome) (s : State) :
    (xfer w n o s).xfers = s.xfers ++ [⟨s.params.busAddr, w, n, o⟩] := rfl

/-! ## takeInput -/

@[simp] theorem takeInput_status (s : State) : (takeInput s).status = s.status := rfl
@[simp] theorem takeInput_cause (s : State) : (takeInput s).cause = s.cause := rfl
@[simp] theorem takeInput_snap (s : State) : (takeInput s).snap = s.snap := rfl
@[simp] theorem takeInput_frame (s : State) : (takeInput s).frame = s.frame := rfl
@[simp] theorem takeInput_brt (s : State) : (takeInput s).brt = s.brt := rfl
@[simp] theorem takeInput_mbox (s : State) : (takeInput s).mbox = s.mbox := rfl
@[simp] theorem takeInput_pressed (s : State) : (takeInput s).pressed = s.pressed := rfl
@[simp] theorem takeInput_t0 (s : State) : (takeInput s).t0 = s.t0 := rfl
@[simp] theorem takeInput_psub (s : State) : (takeInput s).psub = s.psub := rfl
@[simp] theorem takeInput_rsub (s : State) : (takeInput s).rsub = s.rsub := rfl
@[simp] theorem takeInput_ep (s : State) : (takeInput s).ep = s.ep := rfl
@[simp] theorem takeInput_nextEp (s : State) : (takeInput s).nextEp = s.nextEp := rfl
@[simp] theorem takeInput_gamma (s : State) : (takeInput s).gamma = s.gamma := rfl
@[simp] theorem takeInput_pollInterval (s : State) :
    (takeInput s).pollInterval = s.pollInterval := rfl
@[simp] theorem takeInput_lastPoll (s : State) : (takeInput s).lastPoll = s.lastPoll := rfl
@[simp] theorem takeInput_program (s : State) : (takeInput s).program = s.program := rfl
@[simp] theorem takeInput_pi (s : State) : (takeInput s).pi = s.pi := rfl
@[simp] theorem takeInput_now (s : State) : (takeInput s).now = (nextInput s).now := rfl
@[simp] theorem takeInput_params (s : State) : (takeInput s).params = s.params := rfl
@[simp] theorem takeInput_env (s : State) : (takeInput s).env = s.env.tail := rfl
@[simp] theorem takeInput_steps (s : State) : (takeInput s).steps = s.steps + 1 := rfl
@[simp] theorem takeInput_results (s : State) : (takeInput s).results = s.results := rfl
@[simp] theorem takeInput_bootReturns (s : State) : (takeInput s).bootReturns = s.bootReturns := rfl
@[simp] theorem takeInput_xfers (s : State) : (takeInput s).xfers = s.xfers := rfl

/-! ## newEndpoint -/

@[simp] theorem newEndpoint_status (k : Kind) (b : Button) (s : State) :
    (newEndpoint k b s).status = s.status := rfl
@[simp] theorem newEndpoint_cause (k : Kind) (b : Button) (s : State) :
    (newEndpoint k b s).cause = s.cause := rfl
@[simp] theorem newEndpoint_snap (k : Kind) (b : Button) (s : State) :
    (newEndpoint k b s).snap = s.snap := rfl
@[simp] theorem newEndpoint_frame (k : Kind) (b : Button) (s : State) :
    (newEndpoint k b s).frame = s.frame := rfl
@[simp] theorem newEndpoint_brt (k : Kind) (b : Button) (s : State) :
    (newEndpoint k b s).brt = s.brt := rfl
@[simp] theorem newEndpoint_mbox (k : Kind) (b : Button) (s : State) :
    (newEndpoint k b s).mbox = s.mbox := rfl
@[simp] theorem newEndpoint_pressed (k : Kind) (b : Button) (s : State) :
    (newEndpoint k b s).pressed = s.pressed := rfl
@[simp] theorem newEndpoint_t0 (k : Kind) (b : Button) (s : State) :
    (newEndpoint k b s).t0 = s.t0 := rfl
@[simp] theorem newEndpoint_psub (k : Kind) (b : Button) (s : State) :
    (newEndpoint k b s).psub = s.psub := rfl
@[simp] theorem newEndpoint_rsub (k : Kind) (b : Button) (s : State) :
    (newEndpoint k b s).rsub = s.rsub := rfl
@[simp] theorem newEndpoint_ep (k : Kind) (b : Button) (s : State) :
    (newEndpoint k b s).ep = s.ep ++ [⟨k, b, []⟩] := rfl
@[simp] theorem newEndpoint_nextEp (k : Kind) (b : Button) (s : State) :
    (newEndpoint k b s).nextEp = s.nextEp + 1 := rfl
@[simp] theorem newEndpoint_gamma (k : Kind) (b : Button) (s : State) :
    (newEndpoint k b s).gamma = s.gamma := rfl
@[simp] theorem newEndpoint_pollInterval (k : Kind) (b : Button) (s : State) :
    (newEndpoint k b s).pollInterval = s.pollInterval := rfl
@[simp] theorem newEndpoint_lastPoll (k : Kind) (b : Button) (s : State) :
    (newEndpoint k b s).lastPoll = s.lastPoll := rfl
@[simp] theorem newEndpoint_program (k : Kind) (b : Button) (s : State) :
    (newEndpoint k b s).program = s.program := rfl
@[simp] theorem newEndpoint_pi (k : Kind) (b : Button) (s : State) :
    (newEndpoint k b s).pi = s.pi := rfl
@[simp] theorem newEndpoint_now (k : Kind) (b : Button) (s : State) :
    (newEndpoint k b s).now = s.now := rfl
@[simp] theorem newEndpoint_params (k : Kind) (b : Button) (s : State) :
    (newEndpoint k b s).params = s.params := rfl
@[simp] theorem newEndpoint_env (k : Kind) (b : Button) (s : State) :
    (newEndpoint k b s).env = s.env := rfl
@[simp] theorem newEndpoint_steps (k : Kind) (b : Button) (s : State) :
    (newEndpoint k b s).steps = s.steps := rfl
@[simp] theorem newEndpoint_results (k : Kind) (b : Button) (s : State) :
    (newEndpoint k b s).results = s.results := rfl
@[simp] theorem newEndpoint_bootReturns (k : Kind) (b : Button) (s : State) :
    (newEndpoint k b s).bootReturns = s.bootReturns := rfl
@[simp] theorem newEndpoint_xfers (k : Kind) (b : Button) (s : State) :
    (newEndpoint k b s).xfers = s.xfers := rfl

/-! ## shiftOut -/

@[simp] theorem shiftOut_status (s : State) (b : Byte) : (shiftOut s b).status = s.status := rfl
@[simp] theorem shiftOut_cause (s : State) (b : Byte) : (shiftOut s b).cause = s.cause := rfl
@[simp] theorem shiftOut_snap (s : State) (b : Byte) :
    (shiftOut s b).snap = (encRounds s.params.clkBit s.params.datBit 8 s.snap b).2 := rfl
@[simp] theorem shiftOut_frame (s : State) (b : Byte) :
    (shiftOut s b).frame = s.frame ++ (encRounds s.params.clkBit s.params.datBit 8 s.snap b).1 := rfl
@[simp] theorem shiftOut_brt (s : State) (b : Byte) : (shiftOut s b).brt = s.brt := rfl
@[simp] theorem shiftOut_mbox (s : State) (b : Byte) : (shiftOut s b).mbox = s.mbox := rfl
@[simp] theorem shiftOut_pressed (s : State) (b : Byte) : (shiftOut s b).pressed = s.pressed := rfl
@[simp] theorem shiftOut_t0 (s : State) (b : Byte) : (shiftOut s b).t0 = s.t0 := rfl
@[simp] theorem shiftOut_psub (s : State) (b : Byte) : (shiftOut s b).psub = s.psub := rfl
@[simp] theorem shiftOut_rsub (s : State) (b : Byte) : (shiftOut s b).rsub = s.rsub := rfl
@[simp] theorem shiftOut_ep (s : State) (b : Byte) : (shiftOut s b).ep = s.ep := rfl
@[simp] theorem shiftOut_nextEp (s : State) (b : Byte) : (shiftOut s b).nextEp = s.nextEp := rfl
@[simp] theorem shiftOut_gamma (s : State) (b : Byte) : (shiftOut s b).gamma = s.gamma := rfl
@[simp] theorem shiftOut_pollInterval (s : State) (b : Byte) :
    (shiftOut s b).pollInterval = s.pollInterval := rfl
@[simp] theorem shiftOut_lastPoll (s : State) (b : Byte) :
    (shiftOut s b).lastPoll = s.lastPoll := rfl
@[simp] theorem shiftOut_program (s : State) (b : Byte) : (shiftOut s b).program = s.program := rfl
@[simp] theorem shiftOut_pi (s : State) (b : Byte) : (shiftOut s b).pi = s.pi := rfl
@[simp] theorem shiftOut_now (s : State) (b : Byte) : (shiftOut s b).now = s.now := rfl
@[simp] theorem shiftOut_params (s : State) (b : Byte) : (shiftOut s b).params = s.params := rfl
@[simp] theorem shiftOut_env (s : State) (b : Byte) : (shiftOut s b).env = s.env := rfl
@[simp] theorem shiftOut_steps (s : State) (b : Byte) : (shiftOut s b).steps = s.steps := rfl
@[simp] theorem shiftOut_results (s : State) (b : Byte) : (shiftOut s b).results = s.results := rfl
@[simp] theorem shiftOut_bootReturns (s : State) (b : Byte) :
    (shiftOut s b).bootReturns = s.bootReturns := rfl
@[simp] theorem shiftOut_xfers (s : State) (b : Byte) : (shiftOut s b).xfers = s.xfers := rfl

/-! ## bootReturn -/

@[simp] theorem bootReturn_status (r : BootReturn) (s : State) :
    (bootReturn r s).status = s.status := rfl
@[simp] theorem bootReturn_cause (r : BootReturn) (s : State) :
    (bootReturn r s).cause = s.cause := rfl
@[simp] theorem bootReturn_snap (r : BootReturn) (s : State) : (bootReturn r s).snap = s.snap := rfl
@[simp] theorem bootReturn_frame (r : BootReturn) (s : State) :
    (bootReturn r s).frame = s.frame := rfl
@[simp] theorem bootReturn_brt (r : BootReturn) (s : State) : (bootReturn r s).brt = s.brt := rfl
@[simp] theorem bootReturn_mbox (r : BootReturn) (s : State) : (bootReturn r s).mbox = s.mbox := rfl
@[simp] theorem bootReturn_pressed (r : BootReturn) (s : State) :
    (bootReturn r s).pressed = s.pressed := rfl
@[simp] theorem bootReturn_t0 (r : BootReturn) (s : State) : (bootReturn r s).t0 = s.t0 := rfl
@[simp] theorem bootReturn_psub (r : BootReturn) (s : State) : (bootReturn r s).psub = s.psub := rfl
@[simp] theorem bootReturn_rsub (r : BootReturn) (s : State) : (bootReturn r s).rsub = s.rsub := rfl
@[simp] theorem bootReturn_ep (r : BootReturn) (s : State) : (bootReturn r s).ep = s.ep := rfl
@[simp] theorem bootReturn_nextEp (r : BootReturn) (s : State) :
    (bootReturn r s).nextEp = s.nextEp := rfl
@[simp] theorem bootReturn_gamma (r : BootReturn) (s : State) :
    (bootReturn r s).gamma = s.gamma := rfl
@[simp] theorem bootReturn_pollInterval (r : BootReturn) (s : State) :
    (bootReturn r s).pollInterval = s.pollInterval := rfl
@[simp] theorem bootReturn_lastPoll (r : BootReturn) (s : State) :
    (bootReturn r s).lastPoll = s.lastPoll := rfl
@[simp] theorem bootReturn_program (r : BootReturn) (s : State) :
    (bootReturn r s).program = s.program := rfl
@[simp] theorem bootReturn_pi (r : BootReturn) (s : State) : (bootReturn r s).pi = s.pi := rfl
@[simp] theorem bootReturn_now (r : BootReturn) (s : State) : (bootReturn r s).now = s.now := rfl
@[simp] theorem bootReturn_params (r : BootReturn) (s : State) :
    (bootReturn r s).params = s.params := rfl
@[simp] theorem bootReturn_env (r : BootReturn) (s : State) : (bootReturn r s).env = s.env := rfl
@[simp] theorem bootReturn_steps (r : BootReturn) (s : State) :
    (bootReturn r s).steps = s.steps := rfl
@[simp] theorem bootReturn_results (r : BootReturn) (s : State) :
    (bootReturn r s).results = s.results := rfl
@[simp] theorem bootReturn_bootReturns (r : BootReturn) (s : State) :
    (bootReturn r s).bootReturns = s.bootReturns ++ [r] := rfl
@[simp] theorem bootReturn_xfers (r : BootReturn) (s : State) :
    (bootReturn r s).xfers = s.xfers := rfl

/-! ## install -/

@[simp] theorem install_status (g : Vector Byte 256) (t : Option Time) (s : State) :
    (install g t s).status = .configured := rfl
@[simp] theorem install_cause (g : Vector Byte 256) (t : Option Time) (s : State) :
    (install g t s).cause = s.cause := rfl
@[simp] theorem install_snap (g : Vector Byte 256) (t : Option Time) (s : State) :
    (install g t s).snap = s.snap := rfl
@[simp] theorem install_frame (g : Vector Byte 256) (t : Option Time) (s : State) :
    (install g t s).frame = s.frame := rfl
@[simp] theorem install_brt (g : Vector Byte 256) (t : Option Time) (s : State) :
    (install g t s).brt = s.brt := rfl
@[simp] theorem install_mbox (g : Vector Byte 256) (t : Option Time) (s : State) :
    (install g t s).mbox = s.mbox := rfl
@[simp] theorem install_pressed (g : Vector Byte 256) (t : Option Time) (s : State) :
    (install g t s).pressed = s.pressed := rfl
@[simp] theorem install_t0 (g : Vector Byte 256) (t : Option Time) (s : State) :
    (install g t s).t0 = s.t0 := rfl
@[simp] theorem install_psub (g : Vector Byte 256) (t : Option Time) (s : State) :
    (install g t s).psub = s.psub := rfl
@[simp] theorem install_rsub (g : Vector Byte 256) (t : Option Time) (s : State) :
    (install g t s).rsub = s.rsub := rfl
@[simp] theorem install_ep (g : Vector Byte 256) (t : Option Time) (s : State) :
    (install g t s).ep = s.ep := rfl
@[simp] theorem install_nextEp (g : Vector Byte 256) (t : Option Time) (s : State) :
    (install g t s).nextEp = s.nextEp := rfl
@[simp] theorem install_gamma (g : Vector Byte 256) (t : Option Time) (s : State) :
    (install g t s).gamma = some g := rfl
@[simp] theorem install_pollInterval (g : Vector Byte 256) (t : Option Time) (s : State) :
    (install g t s).pollInterval = some (t.getD Config.pollIntervalDefault) := rfl
@[simp] theorem install_lastPoll (g : Vector Byte 256) (t : Option Time) (s : State) :
    (install g t s).lastPoll = s.lastPoll := rfl
@[simp] theorem install_program (g : Vector Byte 256) (t : Option Time) (s : State) :
    (install g t s).program = s.program := rfl
@[simp] theorem install_pi (g : Vector Byte 256) (t : Option Time) (s : State) :
    (install g t s).pi = s.pi := rfl
@[simp] theorem install_now (g : Vector Byte 256) (t : Option Time) (s : State) :
    (install g t s).now = s.now := rfl
@[simp] theorem install_params (g : Vector Byte 256) (t : Option Time) (s : State) :
    (install g t s).params = s.params := rfl
@[simp] theorem install_env (g : Vector Byte 256) (t : Option Time) (s : State) :
    (install g t s).env = s.env := rfl
@[simp] theorem install_steps (g : Vector Byte 256) (t : Option Time) (s : State) :
    (install g t s).steps = s.steps := rfl
@[simp] theorem install_results (g : Vector Byte 256) (t : Option Time) (s : State) :
    (install g t s).results = s.results := rfl
@[simp] theorem install_bootReturns (g : Vector Byte 256) (t : Option Time) (s : State) :
    (install g t s).bootReturns = s.bootReturns := rfl
@[simp] theorem install_xfers (g : Vector Byte 256) (t : Option Time) (s : State) :
    (install g t s).xfers = s.xfers := rfl

/-! ## resetBlock -/

@[simp] theorem resetBlock_status (s : State) : (resetBlock s).status = State.reset.status := rfl
@[simp] theorem resetBlock_cause (s : State) : (resetBlock s).cause = State.reset.cause := rfl
@[simp] theorem resetBlock_snap (s : State) : (resetBlock s).snap = State.reset.snap := rfl
@[simp] theorem resetBlock_frame (s : State) : (resetBlock s).frame = State.reset.frame := rfl
@[simp] theorem resetBlock_brt (s : State) : (resetBlock s).brt = State.reset.brt := rfl
@[simp] theorem resetBlock_mbox (s : State) : (resetBlock s).mbox = State.reset.mbox := rfl
@[simp] theorem resetBlock_pressed (s : State) : (resetBlock s).pressed = State.reset.pressed := rfl
@[simp] theorem resetBlock_t0 (s : State) : (resetBlock s).t0 = State.reset.t0 := rfl
@[simp] theorem resetBlock_psub (s : State) : (resetBlock s).psub = State.reset.psub := rfl
@[simp] theorem resetBlock_rsub (s : State) : (resetBlock s).rsub = State.reset.rsub := rfl
@[simp] theorem resetBlock_ep (s : State) : (resetBlock s).ep = State.reset.ep := rfl
@[simp] theorem resetBlock_nextEp (s : State) : (resetBlock s).nextEp = State.reset.nextEp := rfl
@[simp] theorem resetBlock_gamma (s : State) : (resetBlock s).gamma = State.reset.gamma := rfl
@[simp] theorem resetBlock_pollInterval (s : State) : (resetBlock s).pollInterval = State.reset.pollInterval := rfl
@[simp] theorem resetBlock_lastPoll (s : State) : (resetBlock s).lastPoll = State.reset.lastPoll := rfl
@[simp] theorem resetBlock_program (s : State) : (resetBlock s).program = s.program := rfl
@[simp] theorem resetBlock_pi (s : State) : (resetBlock s).pi = State.reset.pi := rfl
@[simp] theorem resetBlock_now (s : State) : (resetBlock s).now = s.now := rfl
@[simp] theorem resetBlock_params (s : State) : (resetBlock s).params = s.params := rfl
@[simp] theorem resetBlock_env (s : State) : (resetBlock s).env = s.env := rfl
@[simp] theorem resetBlock_steps (s : State) : (resetBlock s).steps = s.steps := rfl
@[simp] theorem resetBlock_results (s : State) : (resetBlock s).results = s.results := rfl
@[simp] theorem resetBlock_bootReturns (s : State) : (resetBlock s).bootReturns = s.bootReturns := rfl
@[simp] theorem resetBlock_xfers (s : State) : (resetBlock s).xfers = s.xfers := rfl

end Sys2Proof.Machine
end

