-- ==== Sys2Proof/Laws/Ops.lean ====
section
/-! SUPPORT. One lemma per shared operation that says once everything it can do; later proofs cite
these and do not unfold the operation. -/

namespace Sys2Proof.Machine

open Sys2Proof.Safety

/-! ## The order of checks -/

theorem whenRunning_of_running {s : State} (h : s.status = .running)
    (k : Host.Outcome State Fault Refusal) : whenRunning s k = k := if_pos h

theorem whenRunning_of_not {s : State} (h : s.status ≠ .running)
    (k : Host.Outcome State Fault Refusal) :
    whenRunning s k = .next (complete s (.err (.notRunning s.status s.cause))) := if_neg h

theorem whenBench_of_bench {s : State} (h : s.params.bench = true) (cw : Word)
    (k : Host.Outcome State Fault Refusal) : whenBench cw s k = k := if_pos h

theorem whenBench_of_not {s : State} (h : s.params.bench = false) (cw : Word)
    (k : Host.Outcome State Fault Refusal) : whenBench cw s k = .next (illegal cw s) := by
  simp [whenBench, h]

theorem deposit_of_empty {s : State} (h : s.mbox = .empty) (r g b : Byte) :
    deposit r g b s = .next (complete { s with mbox := .full r g b } .ok) := by
  simp [deposit, h]

theorem deposit_of_full {s : State} {r' g' b' : Byte} (h : s.mbox = .full r' g' b') (r g b : Byte) :
    deposit r g b s = .next s := by
  simp [deposit, hold, h]

/-! ## Operands and conditions -/

theorem buttonOf_ofNat (b : Button) : buttonOf (BitVec.ofNat 3 b) = some b := by
  revert b
  decide

theorem buttonOf_isSome_iff (n : BitVec 3) : n ≤ 4#3 ↔ ∃ b, buttonOf n = some b := by
  revert n
  decide

theorem buttonOf_of_gt (n : BitVec 3) (h : ¬ n ≤ 4#3) : buttonOf n = none := by
  revert n
  decide

theorem mboxFull_iff (s : State) : s.mboxFull = true ↔ s.mbox ≠ .empty := by
  unfold State.mboxFull
  cases s.mbox <;> simp

theorem isRunning_iff (s : State) : s.isRunning = true ↔ s.status = .running := by
  simp [State.isRunning]

/-! ## Bits of a snapshot -/

@[simp] theorem bitMask_getLsbD (i : Fin 8) (k : Nat) :
    (bitMask i).getLsbD k = decide (k = i.val) := by
  have := i.isLt
  simp only [bitMask, BitVec.getLsbD_shiftLeft, BitVec.getLsbD_one]
  by_cases hk : k = i.val
  · simp [hk]
  · simp [hk]; omega

@[simp] theorem bitMask_getElem (i : Fin 8) (k : Nat) (hk : k < 8) :
    (bitMask i)[k] = decide (k = i.val) := by
  rw [← BitVec.getLsbD_eq_getElem, bitMask_getLsbD]

theorem setBit_getElem (v : Byte) (i : Fin 8) (b : Bool) (k : Nat) (hk : k < 8) :
    (setBit v i b)[k] = if k = i.val then b else v[k] := by
  unfold setBit
  by_cases h : k = i.val
  · subst h; cases b <;> simp
  · cases b <;> simp [h]

@[simp] theorem pinMask_getElem (p : Params) (k : Nat) (hk : k < 8) :
    (pinMask p)[k] = (decide (k = p.clkBit.val) || decide (k = p.datBit.val)) := by
  simp [pinMask]

/-! ## The encoder -/

/-- Every bit of a snapshot of the closed form of 40_encoder.md R121. -/
theorem imageSnapshot_getElem (p : Params) (hne : p.clkBit ≠ p.datBit) (s0 b : Byte) (j k : Nat)
    (hk : k < 8) :
    (imageSnapshot p s0 b j)[k]
      = if k = p.clkBit.val then decide (j % 2 = 1)
        else if k = p.datBit.val then b.getLsbD (7 - j / 2) else s0[k] := by
  have hne' : p.clkBit.val ≠ p.datBit.val := fun h => hne (Fin.ext h)
  have : (p.clkBit.val = p.datBit.val) = False := eq_false hne'
  unfold imageSnapshot
  by_cases hc : k = p.clkBit.val
  · subst hc
    split <;> split <;> simp_all
  · by_cases hd : k = p.datBit.val
    · subst hd
      split <;> split <;> simp_all
    · split <;> split <;> simp_all

/-- A snapshot register with the other pins of `s0` gives the same closed form as `s0`
(40_encoder.md R121: the image depends on S0 only through its other-pin bits). -/
theorem imageSnapshot_congr (p : Params) {s0 s1 : Byte}
    (h : s0 &&& ~~~ pinMask p = s1 &&& ~~~ pinMask p) (b : Byte) (j : Nat) :
    imageSnapshot p s0 b j = imageSnapshot p s1 b j := by
  simp [imageSnapshot, h]

/-- The closed form of `n` rounds of the encoder (40_encoder.md R121 is the case n = 8). -/
theorem encRounds_spec (p : Params) (hne : p.clkBit ≠ p.datBit) :
    ∀ (n : Nat) (snap w : Byte), n ≤ 8 →
      encRounds p.clkBit p.datBit n snap w
        = ((List.range (2 * n)).map (imageSnapshot p snap w),
           if n = 0 then snap else imageSnapshot p snap w (2 * n - 1)) := by
  intro n
  induction n with
  | zero => intro snap w _; rfl
  | succ n ih =>
    intro snap w hn
    have hne' : p.clkBit.val ≠ p.datBit.val := fun h => hne (Fin.ext h)
    have low : setBit (setBit snap p.clkBit false) p.datBit w.msb = imageSnapshot p snap w 0 := by
      apply BitVec.eq_of_getElem_eq
      intro k hk
      rw [setBit_getElem _ _ _ _ hk, setBit_getElem _ _ _ _ hk,
        imageSnapshot_getElem p hne _ _ _ _ hk]
      by_cases hc : k = p.clkBit.val
      · simp [hc, hne']
      · simp [hc, BitVec.msb_eq_getLsbD_last]
    have high : setBit (imageSnapshot p snap w 0) p.clkBit true = imageSnapshot p snap w 1 := by
      apply BitVec.eq_of_getElem_eq
      intro k hk
      rw [setBit_getElem _ _ _ _ hk, imageSnapshot_getElem p hne _ _ _ _ hk,
        imageSnapshot_getElem p hne _ _ _ _ hk]
      by_cases hc : k = p.clkBit.val <;> simp [hc]
    have next : ∀ j, j < 2 * n →
        imageSnapshot p (imageSnapshot p snap w 1) (w <<< 1) j = imageSnapshot p snap w (j + 2) := by
      intro j hj
      apply BitVec.eq_of_getElem_eq
      intro k hk
      rw [imageSnapshot_getElem p hne _ _ _ _ hk, imageSnapshot_getElem p hne _ _ _ _ hk,
        imageSnapshot_getElem p hne _ _ _ _ hk]
      by_cases hc : k = p.clkBit.val
      · simp [hc]
      · by_cases hd : k = p.datBit.val
        · have e : 7 - j / 2 = (7 - (j + 2) / 2) + 1 := by omega
          have lt : 6 - j / 2 + 1 < 8 := by omega
          rw [if_neg hc, if_pos hd, if_neg hc, if_pos hd, e]
          simp [lt, BitVec.getLsbD_eq_getElem (x := w) (Nat.lt_of_succ_lt lt)]
        · simp [hc, hd]
    have rest := ih (imageSnapshot p snap w 1) (w <<< 1) (by omega)
    simp only [encRounds, low, high, rest]
    refine Prod.ext ?_ ?_
    · rw [show 2 * (n + 1) = (2 * n + 1) + 1 by ring, List.range_succ_eq_map, List.range_succ_eq_map]
      simp only [List.map_cons, List.map_map]
      congr 2
      apply List.map_congr_left
      intro j hj
      exact next j (List.mem_range.mp hj)
    · by_cases h0 : n = 0
      · subst h0; rfl
      · simp only [h0, if_false, Nat.succ_ne_zero]
        rw [next _ (by omega)]
        congr 1
        omega

/-- What ENCB does to the state (40_encoder.md R121). -/
theorem shiftOut_spec (s : State) (hne : s.params.clkBit ≠ s.params.datBit) (b : Byte) :
    shiftOut s b = { s with
      snap := imageSnapshot s.params s.snap b 15, frame := s.frame ++ image s.params s.snap b } := by
  simp [shiftOut, encRounds_spec s.params hne 8 s.snap b (by omega), image]

/-! ## Delivery -/

/-- `try_send` changes the queue of the one endpoint it names (41_detector.md R168). -/
theorem trySend_getElem? (cap : Nat) (p : Payload) (ep : List Endpoint) (e i : Nat) :
    (trySend cap p ep e)[i]?
      = (ep[i]?).map fun x => if i = e then { x with q := afterOffer cap x.q (some p) } else x := by
  unfold trySend
  cases h : ep[e]? with
  | none =>
    by_cases hi : i = e
    · subst hi; simp [h]
    · simp [hi]
  | some x =>
    by_cases hi : i = e
    · subst hi
      have lt := (List.getElem?_eq_some_iff.mp h).1
      rw [h]
      by_cases hf : cap ≤ x.q.length
      · simp [Endpoint.isFull, hf, h, afterOffer, Nat.not_lt.mpr hf]
      · simp only [Endpoint.isFull, hf, decide_false, Bool.false_eq_true, if_false]
        rw [List.getElem?_set_self lt]
        simp [afterOffer, Nat.lt_of_not_le hf]
    · by_cases hf : cap ≤ x.q.length
      · simp [Endpoint.isFull, hf, hi]
      · simp [Endpoint.isFull, hf, hi, Ne.symm hi]

/-- Fan-out to a list without repeats: each subscriber is offered the payload, whatever became of
the others (41_detector.md R169). -/
theorem deliver_getElem? (cap : Nat) (p : Payload) (l : List Nat) (hl : l.Nodup)
    (ep : List Endpoint) (i : Nat) :
    (deliver cap p l ep)[i]?
      = (ep[i]?).map fun x => if i ∈ l then { x with q := afterOffer cap x.q (some p) } else x := by
  unfold deliver
  induction l generalizing ep with
  | nil => simp
  | cons e l ih =>
    obtain ⟨he, hl⟩ := List.nodup_cons.mp hl
    rw [List.foldl_cons, ih hl, trySend_getElem?]
    cases ep[i]? with
    | none => rfl
    | some x =>
      by_cases hi : i = e
      · subst hi; simp [he]
      · simp [hi]

@[simp] theorem trySend_length (cap : Nat) (p : Payload) (ep : List Endpoint) (e : Nat) :
    (trySend cap p ep e).length = ep.length := by
  unfold trySend
  split
  · split <;> simp
  · rfl

@[simp] theorem deliver_length (cap : Nat) (p : Payload) (l : List Nat) (ep : List Endpoint) :
    (deliver cap p l ep).length = ep.length := by
  unfold deliver
  induction l generalizing ep with
  | nil => rfl
  | cons e l ih => rw [List.foldl_cons, ih, trySend_length]

/-! ## The evaluation of a sample -/

/-- EVALBTN writes PRESSED, T0 and the endpoint queues only (41_detector.md R161). -/
theorem evalBtn_frame (v : Byte) (now : Time) (s : State) (b : Button) :
    evalBtn v now s b = { s with
      pressed := (evalBtn v now s b).pressed, t0 := (evalBtn v now s b).t0,
      ep := (evalBtn v now s b).ep } := by
  unfold evalBtn
  split <;> rfl

theorem evalBtns_frame (v : Byte) (now : Time) (l : List Button) (s : State) :
    l.foldl (evalBtn v now) s = { s with
      pressed := (l.foldl (evalBtn v now) s).pressed, t0 := (l.foldl (evalBtn v now) s).t0,
      ep := (l.foldl (evalBtn v now) s).ep } := by
  induction l generalizing s with
  | nil => rfl
  | cons b l ih => rw [List.foldl_cons, ih, evalBtn_frame]

/-- EVAL writes PRESSED, T0, the endpoint queues and LAST_POLL only (41_detector.md R166). -/
theorem eval_frame (v : Byte) (now : Time) (s : State) :
    eval v now s = { s with
      pressed := (eval v now s).pressed, t0 := (eval v now s).t0, ep := (eval v now s).ep,
      lastPoll := some now } := by
  unfold eval
  rw [evalBtns_frame]

/-! ## The fields that EVAL leaves alone -/

@[simp] theorem eval_keeps_status (v : Byte) (now : Time) (s : State) :
    (eval v now s).status = s.status := by
  rw [eval_frame]
@[simp] theorem eval_keeps_cause (v : Byte) (now : Time) (s : State) :
    (eval v now s).cause = s.cause := by
  rw [eval_frame]
@[simp] theorem eval_keeps_snap (v : Byte) (now : Time) (s : State) :
    (eval v now s).snap = s.snap := by
  rw [eval_frame]
@[simp] theorem eval_keeps_frame (v : Byte) (now : Time) (s : State) :
    (eval v now s).frame = s.frame := by
  rw [eval_frame]
@[simp] theorem eval_keeps_brt (v : Byte) (now : Time) (s : State) :
    (eval v now s).brt = s.brt := by
  rw [eval_frame]
@[simp] theorem eval_keeps_mbox (v : Byte) (now : Time) (s : State) :
    (eval v now s).mbox = s.mbox := by
  rw [eval_frame]
@[simp] theorem eval_keeps_psub (v : Byte) (now : Time) (s : State) :
    (eval v now s).psub = s.psub := by
  rw [eval_frame]
@[simp] theorem eval_keeps_rsub (v : Byte) (now : Time) (s : State) :
    (eval v now s).rsub = s.rsub := by
  rw [eval_frame]
@[simp] theorem eval_keeps_nextEp (v : Byte) (now : Time) (s : State) :
    (eval v now s).nextEp = s.nextEp := by
  rw [eval_frame]
@[simp] theorem eval_keeps_gamma (v : Byte) (now : Time) (s : State) :
    (eval v now s).gamma = s.gamma := by
  rw [eval_frame]
@[simp] theorem eval_keeps_pollInterval (v : Byte) (now : Time) (s : State) :
    (eval v now s).pollInterval = s.pollInterval := by
  rw [eval_frame]
@[simp] theorem eval_keeps_program (v : Byte) (now : Time) (s : State) :
    (eval v now s).program = s.program := by
  rw [eval_frame]
@[simp] theorem eval_keeps_pi (v : Byte) (now : Time) (s : State) :
    (eval v now s).pi = s.pi := by
  rw [eval_frame]
@[simp] theorem eval_keeps_now (v : Byte) (now : Time) (s : State) :
    (eval v now s).now = s.now := by
  rw [eval_frame]
@[simp] theorem eval_keeps_params (v : Byte) (now : Time) (s : State) :
    (eval v now s).params = s.params := by
  rw [eval_frame]
@[simp] theorem eval_keeps_env (v : Byte) (now : Time) (s : State) :
    (eval v now s).env = s.env := by
  rw [eval_frame]
@[simp] theorem eval_keeps_steps (v : Byte) (now : Time) (s : State) :
    (eval v now s).steps = s.steps := by
  rw [eval_frame]
@[simp] theorem eval_keeps_results (v : Byte) (now : Time) (s : State) :
    (eval v now s).results = s.results := by
  rw [eval_frame]
@[simp] theorem eval_keeps_bootReturns (v : Byte) (now : Time) (s : State) :
    (eval v now s).bootReturns = s.bootReturns := by
  rw [eval_frame]
@[simp] theorem eval_keeps_xfers (v : Byte) (now : Time) (s : State) :
    (eval v now s).xfers = s.xfers := by
  rw [eval_frame]
@[simp] theorem eval_lastPoll (v : Byte) (now : Time) (s : State) :
    (eval v now s).lastPoll = some now := by
  rw [eval_frame]

end Sys2Proof.Machine
end

