-- ==== Sys2Proof/Laws/Detector.lean ====
section
/-! SUPPORT. What one poll cycle does, in closed form (41_detector.md R165), assembled from one lemma
per button. -/

namespace Sys2Proof.Machine

open Sys2Proof.Safety

/-- The part of the invariant that the evaluation of a sample rests on. -/
structure Wired (s : State) : Prop where
  t0Iff : ∀ b : Button, (s.t0[b]).isSome = s.pressed[b]
  psubMem : ∀ (b : Button) (id : Nat), id ∈ s.psub[b] ↔ names s id .press b
  rsubMem : ∀ (b : Button) (id : Nat), id ∈ s.rsub[b] ↔ names s id .release b
  psubNodup : ∀ b : Button, (s.psub[b]).Nodup
  rsubNodup : ∀ b : Button, (s.rsub[b]).Nodup

theorem wired_of_inv {s : State} (h : Inv s) : Wired s :=
  ⟨h.t0Iff, h.psubMem, h.rsubMem, h.psubNodup, h.rsubNodup⟩

/-- The table entry of button b after an edge (41_detector.md R161). -/
def t0After (s : State) (v : Byte) (now : Time) (b : Button) : Option Time :=
  if pressEdge s v b then some now else if releaseEdge s v b then none else s.t0[b]

/-- After an evaluation the table has an entry exactly for a pressed button. -/
theorem t0After_isSome {s : State} {v : Byte} {b : Button} (now : Time)
    (h : (s.t0[b]).isSome = s.pressed[b]) : (t0After s v now b).isSome = v.getLsbD b := by
  unfold t0After pressEdge releaseEdge
  by_cases hv : v.getLsbD b = true <;> by_cases hp : s.pressed[b] = true
  · rw [if_neg (by simp [hp]), if_neg (by simp [hv]), h, hp, hv]
  · rw [if_pos (by simp [hv, hp]), hv]; rfl
  · rw [if_neg (by simp [hv]), if_pos (by simp [hv, hp])]; simp [hv]
  · rw [if_neg (by simp [hv]), if_neg (by simp [hp]), h]; simp [hv, hp]

/-- An endpoint after its button has been evaluated. -/
def afterEdge (s : State) (v : Byte) (now : Time) (x : Endpoint) : Endpoint :=
  { x with q := afterOffer s.params.epCap x.q (offered s v now x.kind x.btn) }

theorem names_map {s t : State} (f : Nat → Endpoint → Endpoint)
    (hf : ∀ i x, (f i x).kind = x.kind ∧ (f i x).btn = x.btn)
    (h : ∀ i : Nat, t.ep[i]? = (s.ep[i]?).map (f i)) (id : Nat) (k : Kind) (b : Button) :
    names t id k b ↔ names s id k b := by
  unfold names
  rw [h]
  cases s.ep[id]? <;> simp [hf]

theorem afterEdge_of_none {s : State} {v : Byte} {now : Time} {x : Endpoint}
    (h : offered s v now x.kind x.btn = none) : afterEdge s v now x = x := by
  simp [afterEdge, h, afterOffer]

theorem afterEdge_of_some {s : State} {v : Byte} {now : Time} {x : Endpoint} {p : Payload}
    (h : offered s v now x.kind x.btn = some p) :
    afterEdge s v now x = { x with q := afterOffer s.params.epCap x.q (some p) } := by
  simp [afterEdge, h]

/-- Delivery to the list of one kind and button reaches exactly the endpoints of that kind and
button. -/
theorem deliver_wired {s : State} {l : List Nat} {k : Kind} {b : Button} (hl : l.Nodup)
    (hm : ∀ id, id ∈ l ↔ names s id k b) (p : Payload) (i : Nat) :
    (deliver s.params.epCap p l s.ep)[i]?
      = (s.ep[i]?).map fun x =>
          if x.kind = k ∧ x.btn = b then
            { x with q := afterOffer s.params.epCap x.q (some p) } else x := by
  rw [deliver_getElem? _ _ _ hl]
  cases h : s.ep[i]? with
  | none => rfl
  | some x => simp [hm, names, h]

/-- One button of a cycle: its table entry and the queues of its endpoints follow its edge, and
nothing else changes (41_detector.md R161). -/
theorem evalBtn_spec (v : Byte) (now : Time) {s : State} (hw : Wired s) (b : Button) :
    (∀ c : Button, (evalBtn v now s b).pressed[c] = if c = b then v.getLsbD b else s.pressed[c])
    ∧ (∀ c : Button, (evalBtn v now s b).t0[c] = if c = b then t0After s v now b else s.t0[c])
    ∧ (∀ i : Nat, (evalBtn v now s b).ep[i]?
        = (s.ep[i]?).map fun x => if x.btn = b then afterEdge s v now x else x) := by
  have hp : s.isPressed b = s.pressed[b] := rfl
  have hx : sampleBit v b = v.getLsbD b := rfl
  have hn : ∀ c : Button, (b.val = c.val) = (c = b) := fun c => by
    rw [eq_comm (a := b.val)]; exact propext Fin.val_inj
  have ht := hw.t0Iff b
  unfold evalBtn
  rw [hp, hx]
  cases hv : v.getLsbD b <;> cases hpr : s.pressed[b] <;> rw [hpr] at ht <;> dsimp only
  · refine ⟨fun c => ?_, fun c => ?_, fun i => ?_⟩
    · by_cases h : c = b
      · subst h; simpa using hpr
      · simp [h]
    · by_cases h : c = b
      · subst h; simp [t0After, pressEdge, releaseEdge, hv, hpr]
      · simp [h]
    · cases s.ep[i]? with
      | none => rfl
      | some x =>
        by_cases hb : x.btn = b
        · rw [Option.map_some, if_pos hb, afterEdge_of_none]
          cases x.kind <;> simp [offered, pressEdge, releaseEdge, hb, hv, hpr]
        · simp [hb]
  · obtain ⟨t, ht⟩ := Option.isSome_iff_exists.mp ht
    refine ⟨fun c => ?_, fun c => ?_, fun i => ?_⟩
    · by_cases h : c = b
      · subst h; simp
      · simp [h, hn]
    · by_cases h : c = b
      · subst h; simp [t0After, pressEdge, releaseEdge, hv, hpr]
      · simp [h, hn]
    · rw [deliver_wired (hw.rsubNodup b) (hw.rsubMem b)]
      cases s.ep[i]? with
      | none => rfl
      | some x =>
        by_cases hb : x.btn = b
        · rw [Option.map_some, Option.map_some, if_pos hb]
          cases hk : x.kind
          · rw [afterEdge_of_none (by simp [offered, pressEdge, hk, hb, hv]), if_neg (by simp)]
          · rw [afterEdge_of_some (p := .duration (now - t))
              (by simp [offered, releaseEdge, hk, hb, hv, hpr, ht]), if_pos ⟨rfl, hb⟩]
            simp [t0At, ht, hk]
        · simp [hb]
  · refine ⟨fun c => ?_, fun c => ?_, fun i => ?_⟩
    · by_cases h : c = b
      · subst h; simp
      · simp [h, hn]
    · by_cases h : c = b
      · subst h; simp [t0After, pressEdge, hv, hpr]
      · simp [h, hn]
    · rw [deliver_wired (hw.psubNodup b) (hw.psubMem b)]
      cases s.ep[i]? with
      | none => rfl
      | some x =>
        by_cases hb : x.btn = b
        · rw [Option.map_some, Option.map_some, if_pos hb]
          cases hk : x.kind
          · rw [afterEdge_of_some (p := .unit) (by simp [offered, pressEdge, hk, hb, hv, hpr]),
              if_pos ⟨rfl, hb⟩, hk]
          · rw [afterEdge_of_none (by simp [offered, releaseEdge, hk, hb, hv]), if_neg (by simp)]
        · simp [hb]
  · refine ⟨fun c => ?_, fun c => ?_, fun i => ?_⟩
    · by_cases h : c = b
      · subst h; simpa using hpr
      · simp [h]
    · by_cases h : c = b
      · subst h; simp [t0After, pressEdge, releaseEdge, hv, hpr]
      · simp [h]
    · cases s.ep[i]? with
      | none => rfl
      | some x =>
        by_cases hb : x.btn = b
        · rw [Option.map_some, if_pos hb, afterEdge_of_none]
          cases x.kind <;> simp [offered, pressEdge, releaseEdge, hb, hv, hpr]
        · simp [hb]

/-- Evaluating a button keeps what the evaluation rests on. -/
theorem evalBtn_wired (v : Byte) (now : Time) {s : State} (hw : Wired s) (b : Button) :
    Wired (evalBtn v now s b) := by
  obtain ⟨hp, ht, he⟩ := evalBtn_spec v now hw b
  have hf := evalBtn_frame v now s b
  have hn : ∀ id k c, names (evalBtn v now s b) id k c ↔ names s id k c :=
    names_map (fun _ x => if x.btn = b then afterEdge s v now x else x)
      (fun _ x => by split <;> simp [afterEdge]) he
  have hps : (evalBtn v now s b).psub = s.psub := by rw [hf]
  have hrs : (evalBtn v now s b).rsub = s.rsub := by rw [hf]
  refine ⟨fun c => ?_, fun c id => ?_, fun c id => ?_, fun c => ?_, fun c => ?_⟩
  · rw [hp, ht]
    by_cases hc : c = b
    · subst hc
      rw [if_pos rfl, if_pos rfl, t0After_isSome now (hw.t0Iff c)]
    · simp only [hc, if_false]; exact hw.t0Iff c
  · rw [hps, hn]; exact hw.psubMem c id
  · rw [hrs, hn]; exact hw.rsubMem c id
  · rw [hps]; exact hw.psubNodup c
  · rw [hrs]; exact hw.rsubNodup c

/-- A list of distinct buttons evaluated in turn: each sees the cycle's sample and time, and none
sees another's edge. -/
theorem evalBtns_spec (v : Byte) (now : Time) (l : List Button) (hl : l.Nodup) {s : State}
    (hw : Wired s) :
    (∀ c : Button, (l.foldl (evalBtn v now) s).pressed[c]
        = if c ∈ l then v.getLsbD c else s.pressed[c])
    ∧ (∀ c : Button, (l.foldl (evalBtn v now) s).t0[c]
        = if c ∈ l then t0After s v now c else s.t0[c])
    ∧ (∀ i : Nat, (l.foldl (evalBtn v now) s).ep[i]?
        = (s.ep[i]?).map fun x => if x.btn ∈ l then afterEdge s v now x else x)
    ∧ Wired (l.foldl (evalBtn v now) s) := by
  induction l generalizing s with
  | nil => simpa using hw
  | cons b l ih =>
    obtain ⟨hb, hl⟩ := List.nodup_cons.mp hl
    obtain ⟨hp, ht, he⟩ := evalBtn_spec v now hw b
    obtain ⟨ihp, iht, ihe, ihw⟩ := ih hl (evalBtn_wired v now hw b)
    have hcap : (evalBtn v now s b).params = s.params := by rw [evalBtn_frame]
    have same : ∀ c : Button, c ∈ l → c ≠ b := fun c hc h => hb (h ▸ hc)
    have hpe : ∀ c : Button, c ∈ l → pressEdge (evalBtn v now s b) v c = pressEdge s v c :=
      fun c hc => by rw [pressEdge, pressEdge, hp, if_neg (same c hc)]
    have hre : ∀ c : Button, c ∈ l → releaseEdge (evalBtn v now s b) v c = releaseEdge s v c :=
      fun c hc => by rw [releaseEdge, releaseEdge, hp, if_neg (same c hc)]
    have hedge : ∀ c : Button, c ∈ l → t0After (evalBtn v now s b) v now c = t0After s v now c :=
      fun c hc => by rw [t0After, t0After, hpe c hc, hre c hc, ht, if_neg (same c hc)]
    have hoff : ∀ (c : Button) (k : Kind), c ∈ l →
        offered (evalBtn v now s b) v now k c = offered s v now k c := by
      intro c k hc
      cases k
      · rw [offered, offered, hpe c hc]
      · rw [offered, offered, hre c hc, ht, if_neg (same c hc)]
    simp only [List.foldl_cons, List.mem_cons]
    refine ⟨fun c => ?_, fun c => ?_, fun i => ?_, ihw⟩
    · rw [ihp, hp]
      by_cases hc : c ∈ l
      · simp [hc]
      · by_cases h : c = b <;> simp [hc, h]
    · rw [iht, ht]
      by_cases hc : c ∈ l
      · simp [hc, hedge c hc]
      · by_cases h : c = b
        · subst h; simp [hc]
        · simp [hc, h]
    · rw [ihe, he]
      cases s.ep[i]? with
      | none => rfl
      | some x =>
        simp only [Option.map_some, Option.some.injEq]
        by_cases hx : x.btn = b
        · have : (afterEdge s v now x).btn ∉ l := by simpa [afterEdge, hx] using hb
          simp [hx, this]
        · by_cases hm : x.btn ∈ l
          · simp [hx, hm, afterEdge, hoff _ _ hm, hcap]
          · simp [hx, hm]

theorem mem_buttons (b : Button) : b ∈ buttons := by revert b; decide

theorem buttons_nodup : buttons.Nodup := by decide

/-- A poll cycle in closed form (41_detector.md R165, R166): the table takes the sample's low five
bits, and every endpoint is offered the notification of its button's edge. -/
theorem eval_spec (v : Byte) (now : Time) {s : State} (hw : Wired s) :
    (∀ c : Button, (eval v now s).pressed[c] = v.getLsbD c)
    ∧ (∀ c : Button, (eval v now s).t0[c] = t0After s v now c)
    ∧ (∀ i : Nat, (eval v now s).ep[i]? = (s.ep[i]?).map (afterEdge s v now))
    ∧ Wired (eval v now s) := by
  obtain ⟨hp, ht, he, hw'⟩ := evalBtns_spec v now buttons buttons_nodup hw
  simp only [mem_buttons, if_true] at hp ht he
  exact ⟨hp, ht, he, ⟨hw'.t0Iff, hw'.psubMem, hw'.rsubMem, hw'.psubNodup, hw'.rsubNodup⟩⟩

end Sys2Proof.Machine
end

