-- ==== Sys2Proof/Laws/Step.lean ====
section
/-! SUPPORT. Inversion: everything an operation and a step can do, said once. Claims about all
operations or all steps are case analyses of these. -/

namespace Sys2Proof.Machine

open Sys2Proof.Safety

/-- What an operation that answers a next state has done. -/
inductive Effect (s : State) : Instr → State → Prop where
  /-- It holds: nothing changes (60_exceptions.md R232). -/
  | holds (i : Instr) (hr : s.status = .running) : Effect s i s
  /-- It is refused: nothing but the result and the index changes (60_exceptions.md R201). -/
  | refused (i : Instr) (e : Err) : Effect s i (complete s (.err e))
  | setcolor (r g b : Byte) (hr : s.status = .running) (hm : s.mbox = .empty) :
    Effect s (.setcolor r g b) (complete { s with mbox := .full r g b } .ok)
  | halt (hr : s.status = .running) (hm : s.mbox = .empty) :
    Effect s .halt (complete { s with mbox := .full 0#8 0#8 0#8 } .ok)
  | setbrt (l : Byte) (hr : s.status = .running) :
    Effect s (.setbrt l) (complete { s with brt := l } .ok)
  | subp (n : BitVec 3) (b : Button) (hr : s.status = .running) (hn : s.nextEp ≠ Config.nEpMax) :
    Effect s (.subp n) (complete { newEndpoint .press b s with
      psub := s.psub.set b (s.psub[b] ++ [s.nextEp]) } (.okEp (handleOf s.nextEp)))
  | subr (n : BitVec 3) (b : Button) (hr : s.status = .running) (hn : s.nextEp ≠ Config.nEpMax) :
    Effect s (.subr n) (complete { newEndpoint .release b s with
      rsub := s.rsub.set b (s.rsub[b] ++ [s.nextEp]) } (.okEp (handleOf s.nextEp)))
  | recv (e : EpId) (x : Endpoint) (p : Payload) (rest : List Payload) (r : Result)
    (hr : s.status = .running) (hx : s.ep[e.toNat]? = some x) (hq : x.q = p :: rest) :
    Effect s (.recv e) (complete { s with ep := s.ep.set e.toNat { x with q := rest } } r)
  | encb (b : Byte) (hr : s.status = .running) (hb : s.params.bench = true) :
    Effect s (.encb b) (complete (shiftOut s b) .ok)
  | sample (v : Byte) (hr : s.status = .running) (hb : s.params.bench = true) :
    Effect s (.sample v) (complete (eval v s.now s) .ok)

theorem whenRunning_next {s t : State} {k : Host.Outcome State Fault Refusal} {i : Instr}
    (h : whenRunning s k = .next t) (hk : s.status = .running → k = .next t → Effect s i t) :
    Effect s i t := by
  by_cases hr : s.status = .running
  · rw [whenRunning_of_running hr] at h; exact hk hr h
  · rw [whenRunning_of_not hr] at h; cases h; exact .refused i _

theorem whenBench_next {s t : State} {cw : Word} {k : Host.Outcome State Fault Refusal} {i : Instr}
    (h : whenBench cw s k = .next t) (hk : s.params.bench = true → k = .next t → Effect s i t) :
    Effect s i t := by
  cases hb : s.params.bench with
  | false => rw [whenBench_of_not hb] at h; cases h; exact .refused i _
  | true => rw [whenBench_of_bench hb] at h; exact hk hb h

/-- Everything an operation can do when it answers a next state. -/
theorem exec_next {i : Instr} {s t : State} (h : exec i s = .next t) : Effect s i t := by
  cases i with
  | setcolor r g b =>
    refine whenRunning_next h fun hr h => ?_
    cases hm : s.mbox with
    | empty => rw [deposit_of_empty hm] at h; cases h; exact .setcolor r g b hr hm
    | full => rw [deposit_of_full hm] at h; cases h; exact .holds _ hr
  | setbrt l => exact whenRunning_next h fun hr h => by cases h; exact .setbrt l hr
  | subp n =>
    change execSubp n s = _ at h
    unfold execSubp at h
    split at h
    · cases h; exact .refused _ _
    · rename_i b _
      refine whenRunning_next h fun hr h => ?_
      split at h
      · cases h; exact .refused _ _
      · rename_i hn; cases h; exact .subp n b hr hn
  | subr n =>
    change execSubr n s = _ at h
    unfold execSubr at h
    split at h
    · cases h; exact .refused _ _
    · rename_i b _
      refine whenRunning_next h fun hr h => ?_
      split at h
      · cases h; exact .refused _ _
      · rename_i hn; cases h; exact .subr n b hr hn
  | halt =>
    refine whenRunning_next h fun hr h => ?_
    cases hm : s.mbox with
    | empty => rw [deposit_of_empty hm] at h; cases h; exact .halt hr hm
    | full => rw [deposit_of_full hm] at h; cases h; exact .holds _ hr
  | recv e =>
    refine whenRunning_next h fun hr h => ?_
    split at h
    · cases h; exact .refused _ _
    · split at h
      · cases h
      · rename_i x hx
        split at h
        · cases h; exact .holds _ hr
        · rename_i p rest hq
          unfold answerPayload at h
          split at h <;> cases h <;> exact .recv e x _ rest _ hr hx hq
  | encb b =>
    exact whenBench_next h fun hb h => whenRunning_next h fun hr h => by cases h; exact .encb b hr hb
  | sample v =>
    exact whenBench_next h fun hb h =>
      whenRunning_next h fun hr h => by cases h; exact .sample v hr hb

/-- The host's turn answers a next state in three ways: no word, an illegal word, an operation. -/
theorem hostTurn_next {s t : State} (h : hostTurn s = .next t) :
    (s.program[s.pi]? = none ∧ t = s)
    ∨ (∃ cw e, s.program[s.pi]? = some cw ∧ decode s.params.bench cw = .error e ∧ t = illegal cw s)
    ∨ (∃ cw i, s.program[s.pi]? = some cw ∧ decode s.params.bench cw = .ok i ∧ Effect s i t) := by
  unfold hostTurn presentedWord at h
  split at h
  · cases h; exact .inl ⟨‹_›, rfl⟩
  · rename_i cw hw
    split at h
    · rename_i i hd; exact .inr (.inr ⟨cw, i, hw, hd, exec_next h⟩)
    · rename_i e hd; cases h; exact .inr (.inl ⟨cw, e, hw, hd, rfl⟩)

end Sys2Proof.Machine
end

