-- ==== Sys2Proof/Laws/Agents.lean ====
section
/-! SUPPORT. What the agents' steps and boot do, one lemma each. -/

namespace Sys2Proof.Machine

open Sys2Proof.Safety

theorem image_congr (p : Params) {s0 s1 : Byte}
    (h : s0 &&& ~~~ pinMask p = s1 &&& ~~~ pinMask p) (b : Byte) : image p s0 b = image p s1 b :=
  List.map_congr_left fun j _ => imageSnapshot_congr p h b j

@[simp] theorem image_length (p : Params) (s0 b : Byte) : (image p s0 b).length = 16 := by
  simp [image]

theorem encRounds_length (clk dat : Fin 8) :
    ∀ (n : Nat) (snap w : Byte), (encRounds clk dat n snap w).1.length = 2 * n := by
  intro n
  induction n with
  | zero => intro _ _; rfl
  | succ n ih => intro snap w; simp [encRounds, ih]; omega

/-- The other pins of a snapshot of the closed form are those of the register it starts from
(40_encoder.md R123). -/
theorem imageSnapshot_other (p : Params) (s0 b : Byte) (j : Nat) :
    imageSnapshot p s0 b j &&& ~~~ pinMask p = s0 &&& ~~~ pinMask p := by
  apply BitVec.eq_of_getElem_eq
  intro k hk
  unfold imageSnapshot
  by_cases hc : k = p.clkBit.val
  · simp [hc]
  · by_cases hd : k = p.datBit.val
    · simp [hd]
    · split <;> split <;> simp [hc, hd]

/-- Encoding a list of bytes writes SNAP and FRAME only (40_encoder.md R130). -/
theorem shiftOuts_frame (c : List Byte) (s : State) :
    c.foldl shiftOut s = { s with
      snap := (c.foldl shiftOut s).snap, frame := (c.foldl shiftOut s).frame } := by
  induction c generalizing s with
  | nil => rfl
  | cons b c ih => rw [List.foldl_cons, ih]; rfl

theorem shiftOuts_length (c : List Byte) (s : State) :
    (c.foldl shiftOut s).frame.length = s.frame.length + 16 * c.length := by
  induction c generalizing s with
  | nil => rfl
  | cons b c ih => rw [List.foldl_cons, ih]; simp [encRounds_length]; omega

/-- A list of bytes encoded in turn gives the concatenation of their images, and SNAP keeps its other
pins (40_encoder.md R121, R123). -/
theorem shiftOuts_spec (c : List Byte) (s : State) (hne : s.params.clkBit ≠ s.params.datBit) :
    (c.foldl shiftOut s).frame = s.frame ++ frameOf s.params s.snap c
    ∧ (c.foldl shiftOut s).snap &&& ~~~ pinMask s.params = s.snap &&& ~~~ pinMask s.params
    ∧ ∀ b, (c ++ [b]).foldl shiftOut s
        = { s with
          snap := imageSnapshot s.params s.snap b 15
          frame := s.frame ++ frameOf s.params s.snap (c ++ [b]) } := by
  have main : ∀ (c : List Byte) (s : State), s.params.clkBit ≠ s.params.datBit →
      (c.foldl shiftOut s).frame = s.frame ++ frameOf s.params s.snap c
      ∧ (c.foldl shiftOut s).snap &&& ~~~ pinMask s.params
        = s.snap &&& ~~~ pinMask s.params := by
    intro c
    induction c with
    | nil => intro s _; simp [frameOf]
    | cons b c ih =>
      intro s hne
      have hs := shiftOut_spec s hne b
      have hp : (shiftOut s b).params = s.params := rfl
      have ho : (shiftOut s b).snap &&& ~~~ pinMask s.params = s.snap &&& ~~~ pinMask s.params := by
        rw [hs]; exact imageSnapshot_other ..
      obtain ⟨h1, h2⟩ := ih (shiftOut s b) hne
      rw [hp] at h1 h2
      refine ⟨?_, ?_⟩
      · rw [List.foldl_cons, h1, hs]
        simp only [frameOf, List.flatMap_cons, List.append_assoc, List.append_cancel_left_eq]
        congr 1
        funext x
        exact image_congr _ (imageSnapshot_other ..) x
      · rw [List.foldl_cons, h2, ho]
  obtain ⟨h1, h2⟩ := main c s hne
  refine ⟨h1, h2, fun b => ?_⟩
  have hf := shiftOuts_frame c s
  have hp : (c.foldl shiftOut s).params = s.params := by rw [hf]
  rw [List.foldl_append, List.foldl_cons, List.foldl_nil, shiftOut_spec _ (by rw [hp]; exact hne), hp,
    imageSnapshot_congr _ h2, image_congr _ h2, h1, hf]
  simp [frameOf]

/-- A command encoded into an emptied FRAME (40_encoder.md R130): the closed-form frame, SNAP with the
clock high and the data low, since the last byte of every command is 0. -/
theorem encodeCommand_build (rf gf bf : Byte) (s : State)
    (hne : s.params.clkBit ≠ s.params.datBit) :
    encodeCommand (build rf gf bf) s = { s with
      snap := (s.snap &&& ~~~ pinMask s.params) ||| bitMask s.params.clkBit
      frame := frameOf s.params s.snap (build rf gf bf) } := by
  have h := (shiftOuts_spec [0x00#8, 0x00#8, Config.marker, bf, gf, rf, 0x00#8]
    { s with frame := [] } hne).2.2 0x00#8
  have hs : imageSnapshot s.params s.snap 0x00#8 15
      = (s.snap &&& ~~~ pinMask s.params) ||| bitMask s.params.clkBit := by
    simp [imageSnapshot]
  rw [← hs]
  exact h

theorem encodeCommand_length (c : List Byte) (s : State) :
    (encodeCommand c s).frame.length = 16 * c.length := by
  simp [encodeCommand, shiftOuts_length]

/-- LEDSTEP is not enabled outside RUNNING or while MBOX is EMPTY (60_exceptions.md R222). -/
theorem ledStep_disabled {s : State} (h : s.status ≠ .running ∨ s.mbox = .empty) (ans : WriteAns) :
    ledStep ans s = s := by
  unfold ledStep
  rcases h with h | h
  · rw [if_neg h]
  · rw [h]; split <;> rfl

/-- LEDSTEP serving a request, up to the transport's answer (40_encoder.md R130). -/
theorem ledStep_enabled {s : State} {r g b : Byte} (hr : s.status = .running)
    (hm : s.mbox = .full r g b) (ans : WriteAns) :
    ∃ t, t = encodeCommand (ledCommand s r g b) { s with mbox := .empty }
      ∧ t.frame.length = 128
      ∧ t = { s with mbox := .empty, snap := t.snap, frame := t.frame }
      ∧ ledStep ans s
        = memWrite s.params.regOut t.frame ans (faultEntry (.transport .write)) id t := by
  refine ⟨_, rfl, ?_, ?_, ?_⟩
  · rw [encodeCommand_length]; rfl
  · unfold encodeCommand; rw [shiftOuts_frame]
  · unfold ledStep
    rw [if_pos hr, hm]
    dsimp only
    congr 1

/-- POLLSTEP is not enabled outside RUNNING (60_exceptions.md R223). -/
theorem pollStep_disabled {s : State} (h : s.status ≠ .running) (ans : ReadAns) :
    pollStep ans s = s := if_neg h

theorem evalBtn_xfers (v : Byte) (now : Time) (x : List Xfer) (s : State) (b : Button) :
    evalBtn v now { s with xfers := x } b = { evalBtn v now s b with xfers := x } := by
  unfold evalBtn
  simp only [State.isPressed]
  split <;> rfl

/-- What the transport has seen plays no part in the evaluation of a sample. -/
theorem eval_xfers (v : Byte) (now : Time) (x : List Xfer) (s : State) :
    eval v now { s with xfers := x } = { eval v now s with xfers := x } := by
  have all : ∀ (l : List Button) (s : State),
      l.foldl (evalBtn v now) { s with xfers := x }
        = { l.foldl (evalBtn v now) s with xfers := x } := by
    intro l
    induction l with
    | nil => intro s; rfl
    | cons b l ih => intro s; rw [List.foldl_cons, evalBtn_xfers, ih, List.foldl_cons]
  unfold eval
  rw [all]

/-- POLLSTEP with a byte read: the evaluation of that byte, and one transaction
(41_detector.md R163). -/
theorem pollStep_ok {s : State} (h : s.status = .running) (v : Byte) :
    pollStep (.ok v) s = { eval v s.now s with
      xfers := s.xfers ++ [⟨s.params.busAddr, [s.params.regIn], 1, .ok [v]⟩] } := by
  rw [← eval_xfers]
  exact if_pos h

/-- POLLSTEP with a failed read: fault entry and one transaction (41_detector.md R163). -/
theorem pollStep_fail {s : State} (h : s.status = .running) :
    pollStep .fail s = { s with
      status := .faulted, cause := .transport .read
      xfers := s.xfers ++ [⟨s.params.busAddr, [s.params.regIn], 1, .fail⟩] } := by
  unfold pollStep memRead
  rw [if_pos h]
  rfl

/-- A step whose input is the first one queued. -/
theorem step_of_env {s : State} {x : Input} {r : List Input} (h : s.env = x :: r) :
    step s = takeTurn x.turn { s with now := x.now, env := r, steps := s.steps + 1 } := by
  unfold step takeInput nextInput
  rw [h]
  rfl

/-- The input of a step of an endless run is the one fed to it. -/
@[simp] theorem nextInput_fed (run : Nat → State) (input : Nat → Input) (n : Nat) :
    nextInput (fed run input n) = input n := rfl

@[simp] theorem fed_status (run : Nat → State) (input : Nat → Input) (n : Nat) :
    (fed run input n).status = (run n).status := rfl

@[simp] theorem fed_mbox (run : Nat → State) (input : Nat → Input) (n : Nat) :
    (fed run input n).mbox = (run n).mbox := rfl

/-- The LED agent's turn with LEDSTEP enabled empties MBOX, whatever the transport answers. -/
theorem ledEnabled_ledTurn {s t : State} {ans : WriteAns} (ht : (nextInput s).turn = .led ans)
    (he : ledEnabled s) (h : step s = .next t) : t.mbox = .empty := by
  obtain ⟨hr, hm⟩ := he
  cases hf : s.mbox with
  | empty => exact absurd hf hm
  | full r g b =>
    obtain ⟨w, -, -, hw, hs⟩ := ledStep_enabled (s := takeInput s) hr hf ans
    have : step s = .next (ledStep ans (takeInput s)) := by unfold step; rw [ht]; rfl
    rw [this, hs, hw] at h
    injection h with h
    subst h
    cases ans <;> rfl

/-- Encoding reads SNAP, FRAME and the pins only. -/
theorem shiftOuts_congr (c : List Byte) (u w : State) (h1 : u.snap = w.snap)
    (h2 : u.frame = w.frame) (h3 : u.params = w.params) :
    (c.foldl shiftOut u).snap = (c.foldl shiftOut w).snap
    ∧ (c.foldl shiftOut u).frame = (c.foldl shiftOut w).frame := by
  induction c generalizing u w with
  | nil => exact ⟨h1, h2⟩
  | cons b c ih =>
    refine ih _ _ ?_ ?_ ?_
    · simp [shiftOut, h1, h3]
    · simp [shiftOut, h1, h2, h3]
    · simp [shiftOut, h3]

/-- What the evaluation of a sample reads: PRESSED, T0, the registry, the endpoints, EP_CAP. -/
structure SameDetector (u w : State) : Prop where
  pressed : u.pressed = w.pressed
  t0 : u.t0 = w.t0
  params : u.params = w.params
  psub : u.psub = w.psub
  rsub : u.rsub = w.rsub
  ep : u.ep = w.ep

theorem evalBtn_congr (v : Byte) (n : Time) (b : Button) {u w : State} (h : SameDetector u w) :
    SameDetector (evalBtn v n u b) (evalBtn v n w b) := by
  obtain ⟨h1, h2, h3, h4, h5, h6⟩ := h
  unfold evalBtn State.isPressed t0At
  rw [h1, h2, h3, h4, h5, h6]
  split <;> constructor <;> simp [h1, h2, h3, h4, h5, h6]

theorem eval_congr (v : Byte) (n : Time) {u w : State} (h : SameDetector u w) :
    SameDetector (eval v n u) (eval v n w) := by
  have all : ∀ (l : List Button) (u w : State), SameDetector u w →
      SameDetector (l.foldl (evalBtn v n) u) (l.foldl (evalBtn v n) w) := by
    intro l
    induction l with
    | nil => exact fun _ _ h => h
    | cons b l ih => exact fun u w h => ih _ _ (evalBtn_congr v n b h)
  obtain ⟨h1, h2, h3, h4, h5, h6⟩ := all buttons u w h
  exact ⟨h1, h2, h3, h4, h5, h6⟩

/-! ## A step -/

/-- What a step that answers a next state has done; `u` is the state with the step's input taken. -/
inductive Move (s u : State) : State → Prop where
  /-- The host's program is at its end (10_state.md R27). -/
  | hostIdle (ht : (nextInput s).turn = .host) (hw : s.program[s.pi]? = none) : Move s u u
  /-- The host presents an illegal word (30_encoding.md R100). -/
  | hostIllegal (cw : Word) (e : DecodeError) (ht : (nextInput s).turn = .host)
    (hw : s.program[s.pi]? = some cw) (hd : decode s.params.bench cw = .error e) :
    Move s u (illegal cw u)
  /-- The host's operation completes or holds. -/
  | hostOp (cw : Word) (i : Instr) (t : State) (ht : (nextInput s).turn = .host)
    (hw : s.program[s.pi]? = some cw) (hd : decode s.params.bench cw = .ok i)
    (he : Effect u i t) : Move s u t
  /-- An agent whose step is not enabled (60_exceptions.md R222, R223). -/
  | agentIdle (ht : (∃ a, (nextInput s).turn = .led a) ∨ ∃ a, (nextInput s).turn = .poll a)
    (hd : s.status ≠ .running ∨ s.mbox = .empty) : Move s u u
  /-- LEDSTEP with a successful write (40_encoder.md R130). -/
  | ledOk (r g b snap : Byte) (f : List Byte) (ht : (nextInput s).turn = .led .ok)
    (hr : s.status = .running) (hm : s.mbox = .full r g b) (hf : f.length = 128)
    (he : encodeCommand (ledCommand u r g b) { u with mbox := .empty }
      = { u with mbox := .empty, snap := snap, frame := f }) :
    Move s u { u with
      mbox := .empty, snap := snap, frame := f
      xfers := u.xfers ++ [⟨u.params.busAddr, u.params.regOut :: f, 0, .ok []⟩] }
  /-- LEDSTEP with a failed write (40_encoder.md R130, 60_exceptions.md R213). -/
  | ledFail (r g b snap : Byte) (f : List Byte) (ht : (nextInput s).turn = .led .fail)
    (hr : s.status = .running) (hm : s.mbox = .full r g b) (hf : f.length = 128)
    (he : encodeCommand (ledCommand u r g b) { u with mbox := .empty }
      = { u with mbox := .empty, snap := snap, frame := f }) :
    Move s u { u with
      mbox := .empty, snap := snap, frame := f, status := .faulted, cause := .transport .write
      xfers := u.xfers ++ [⟨u.params.busAddr, u.params.regOut :: f, 0, .fail⟩] }
  /-- POLLSTEP with a byte read (41_detector.md R163). -/
  | pollOk (v : Byte) (ht : (nextInput s).turn = .poll (.ok v)) (hr : s.status = .running) :
    Move s u { eval v u.now u with
      xfers := u.xfers ++ [⟨u.params.busAddr, [u.params.regIn], 1, .ok [v]⟩] }
  /-- POLLSTEP with a failed read (41_detector.md R163, 60_exceptions.md R213). -/
  | pollFail (ht : (nextInput s).turn = .poll .fail) (hr : s.status = .running) :
    Move s u { u with
      status := .faulted, cause := .transport .read
      xfers := u.xfers ++ [⟨u.params.busAddr, [u.params.regIn], 1, .fail⟩] }
  /-- CONFIGURE accepted (70_reset_and_hazards.md R244). -/
  | configured (g : Option (List Byte)) (p : Option Time) (table : Vector Byte 256)
    (ht : (nextInput s).turn = .configure g p) (hr : s.status = .reset) :
    Move s u (bootReturn .done (install table p u))
  /-- CONFIGURE refused (70_reset_and_hazards.md R244). -/
  | configureRefused (g : Option (List Byte)) (p : Option Time) (e : Err)
    (ht : (nextInput s).turn = .configure g p) (hr : s.status = .reset) :
    Move s u (bootReturn (.failed e) u)
  /-- INIT with its first write failing (70_reset_and_hazards.md R246, R247), and so on. -/
  | init0 (a1 a2 : WriteAns) (ht : (nextInput s).turn = .init .fail a1 a2)
    (hr : s.status = .configured) :
    Move s u (setupError 0 (xfer [u.params.regCfg, u.params.dirMask] 0 .fail u))
  | init1 (a2 : WriteAns) (ht : (nextInput s).turn = .init .ok .fail a2)
    (hr : s.status = .configured) :
    Move s u (setupError 1 (xfer [u.params.regPol, u.params.polVal] 0 .fail
      (xfer [u.params.regCfg, u.params.dirMask] 0 (.ok []) u)))
  | init2 (ht : (nextInput s).turn = .init .ok .ok .fail) (hr : s.status = .configured) :
    Move s u (setupError 2 (xfer [u.params.regOut, Config.outInit] 0 .fail
      (xfer [u.params.regPol, u.params.polVal] 0 (.ok [])
        (xfer [u.params.regCfg, u.params.dirMask] 0 (.ok []) u))))
  /-- INIT with three successful writes (70_reset_and_hazards.md R246). -/
  | initDone (ht : (nextInput s).turn = .init .ok .ok .ok) (hr : s.status = .configured) :
    Move s u (bootReturn .done { xfer [u.params.regOut, Config.outInit] 0 (.ok [])
      (xfer [u.params.regPol, u.params.polVal] 0 (.ok [])
        (xfer [u.params.regCfg, u.params.dirMask] 0 (.ok []) u)) with status := .running })
  /-- Reset (70_reset_and_hazards.md R240). -/
  | reset (ht : (nextInput s).turn = .reset) : Move s u (resetBlock u)

/-- Everything a step can do when it answers a next state. -/
theorem step_next {s t : State} (h : step s = .next t) : Move s (takeInput s) t := by
  unfold step at h
  cases ht : (nextInput s).turn with
  | host =>
    rw [ht] at h
    rcases hostTurn_next h with ⟨hw, rfl⟩ | ⟨cw, e, hw, hd, rfl⟩ | ⟨cw, i, hw, hd, he⟩
    · exact .hostIdle ht hw
    · exact .hostIllegal cw e ht hw hd
    · exact .hostOp cw i t ht hw hd he
  | led ans =>
    rw [ht] at h
    injection h with h
    subst h
    by_cases hr : s.status = .running
    · cases hm : s.mbox with
      | empty =>
        rw [ledStep_disabled (s := takeInput s) (.inr hm)]; exact .agentIdle (.inl ⟨ans, ht⟩) (.inr hm)
      | full r g b =>
        obtain ⟨w, hw, hl, he, hs⟩ := ledStep_enabled (s := takeInput s) hr hm ans
        rw [hs]
        have hw' : encodeCommand (ledCommand (takeInput s) r g b) { takeInput s with mbox := .empty }
            = { takeInput s with mbox := .empty, snap := w.snap, frame := w.frame } := by
          rw [← hw]; exact he
        generalize w.snap = snap at *
        generalize w.frame = f at *
        subst he
        cases ans
        · exact .ledOk r g b snap f ht hr hm hl hw'
        · exact .ledFail r g b snap f ht hr hm hl hw'
    · rw [ledStep_disabled (s := takeInput s) (.inl hr)]; exact .agentIdle (.inl ⟨ans, ht⟩) (.inl hr)
  | poll ans =>
    rw [ht] at h
    injection h with h
    subst h
    by_cases hr : s.status = .running
    · cases ans with
      | ok v => rw [pollStep_ok (s := takeInput s) hr]; exact .pollOk v ht hr
      | fail => rw [pollStep_fail (s := takeInput s) hr]; exact .pollFail ht hr
    · rw [pollStep_disabled (s := takeInput s) hr]; exact .agentIdle (.inr ⟨ans, ht⟩) (.inl hr)
  | configure g p =>
    rw [ht] at h
    change configure g p (takeInput s) = _ at h
    unfold configure at h
    split at h
    · rename_i hr
      split at h
      · cases h; exact .configured _ p _ ht hr
      · split at h
        · cases h; exact .configured _ p _ ht hr
        · cases h; exact .configureRefused _ p _ ht hr
    · cases h
  | init a0 a1 a2 =>
    rw [ht] at h
    change initBlock a0 a1 a2 (takeInput s) = _ at h
    unfold initBlock at h
    split at h
    · rename_i hr
      injection h with h
      subst h
      cases a0
      · cases a1
        · cases a2
          · exact .initDone ht hr
          · exact .init2 ht hr
        · exact .init1 a2 ht hr
      · exact .init0 a1 a2 ht hr
    · cases h
  | reset =>
    rw [ht] at h
    injection h with h
    subst h
    exact .reset ht

end Sys2Proof.Machine
end

