-- ==== Sys2Proof/Laws/Decode.lean ====
section
/-! SUPPORT. The fields of a command word written as four bytes, and how a mask of the operation map
reads on them (30_encoding.md R96, R97). -/

namespace Sys2Proof

/-! ## A word is its four bytes -/

theorem fieldOp_bytes (a b c d : Byte) : fieldOp (a ++ b ++ c ++ d : BitVec 32) = a := by
  apply BitVec.eq_of_getLsbD_eq
  intro i hi
  simp [fieldOp]
  grind

theorem fieldA_bytes (a b c d : Byte) : fieldA (a ++ b ++ c ++ d : BitVec 32) = b := by
  apply BitVec.eq_of_getLsbD_eq
  intro i hi
  simp [fieldA]
  grind

theorem fieldB_bytes (a b c d : Byte) : fieldB (a ++ b ++ c ++ d : BitVec 32) = c := by
  apply BitVec.eq_of_getLsbD_eq
  intro i hi
  simp [fieldB]
  grind

theorem fieldC_bytes (a b c d : Byte) : fieldC (a ++ b ++ c ++ d : BitVec 32) = d := by
  apply BitVec.eq_of_getLsbD_eq
  intro i hi
  simp [fieldC]
  grind

theorem fieldN_bytes (a b c d : Byte) :
    fieldN (a ++ b ++ c ++ d : BitVec 32) = d.extractLsb' 0 3 := by
  apply BitVec.eq_of_getLsbD_eq
  intro i hi
  simp [fieldN]
  grind

theorem fieldCHi_bytes (a b c d : Byte) :
    fieldCHi (a ++ b ++ c ++ d : BitVec 32) = d.extractLsb' 3 5 := by
  apply BitVec.eq_of_getLsbD_eq
  intro i hi
  simp [fieldCHi]
  grind

theorem fieldE_bytes (a b c d : Byte) : fieldE (a ++ b ++ c ++ d : BitVec 32) = c ++ d := by
  apply BitVec.eq_of_getLsbD_eq
  intro i hi
  simp [fieldE]
  grind

theorem bytes_of_word (cw : Word) :
    (fieldOp cw ++ fieldA cw ++ fieldB cw ++ fieldC cw : BitVec 32) = cw := by
  apply BitVec.eq_of_getLsbD_eq
  intro i hi
  simp [fieldC, fieldB, fieldA, fieldOp]
  grind

/-! ## Masks -/

theorem bytes_and (a b c d m1 m2 m3 m4 : Byte) :
    ((a ++ b ++ c ++ d : BitVec 32) &&& (m1 ++ m2 ++ m3 ++ m4 : BitVec 32))
      = ((a &&& m1) ++ (b &&& m2) ++ (c &&& m3) ++ (d &&& m4) : BitVec 32) := by
  apply BitVec.eq_of_getLsbD_eq
  intro i hi
  simp
  grind

theorem bytes_inj (a b c d a' b' c' d' : Byte) :
    (a ++ b ++ c ++ d : BitVec 32) = (a' ++ b' ++ c' ++ d' : BitVec 32)
      ↔ a = a' ∧ b = b' ∧ c = c' ∧ d = d' := by
  constructor
  · intro h
    refine ⟨?_, ?_, ?_, ?_⟩
    · rw [← fieldOp_bytes a b c d, h, fieldOp_bytes]
    · rw [← fieldA_bytes a b c d, h, fieldA_bytes]
    · rw [← fieldB_bytes a b c d, h, fieldB_bytes]
    · rw [← fieldC_bytes a b c d, h, fieldC_bytes]
  · rintro ⟨rfl, rfl, rfl, rfl⟩; rfl

/-- A row's match and mask, read byte by byte. -/
theorem masked_iff (cw : Word) (m1 m2 m3 m4 a b c d : Byte) :
    cw &&& (m1 ++ m2 ++ m3 ++ m4 : BitVec 32) = (a ++ b ++ c ++ d : BitVec 32)
      ↔ fieldOp cw &&& m1 = a ∧ fieldA cw &&& m2 = b ∧ fieldB cw &&& m3 = c
        ∧ fieldC cw &&& m4 = d := by
  conv_lhs => rw [← bytes_of_word cw, bytes_and, bytes_inj]

/-- The mask of SUBP and SUBR in the low byte leaves bits 7..3. -/
theorem masked_button_iff (cw : Word) : fieldC cw &&& 0xF8#8 = 0#8 ↔ fieldCHi cw = 0#5 := by
  have : fieldCHi cw = (fieldC cw).extractLsb' 3 5 := by
    conv_lhs => rw [← bytes_of_word cw, fieldCHi_bytes]
  rw [this]
  generalize fieldC cw = x
  revert x
  decide

theorem fieldN_of_fieldC (cw : Word) : fieldN cw = (fieldC cw).extractLsb' 0 3 := by
  conv_lhs => rw [← bytes_of_word cw, fieldN_bytes]

theorem fieldE_of_fields (cw : Word) : fieldE cw = fieldB cw ++ fieldC cw := by
  conv_lhs => rw [← bytes_of_word cw, fieldE_bytes]

end Sys2Proof
end

