-- ==== Sys2Proof/Laws/Invariant.lean ====
section
/-! SUPPORT. What each update of the state does to the invariant `Sys2Proof.Safety.Inv`. -/

namespace Sys2Proof.Machine

open Sys2Proof.Safety

/-- The invariant speaks of the registers of the block and of the parameters only. -/
theorem inv_of_sameBlock {s t : State} (hi : Inv s) (h : sameBlock t s) (hp : t.params = s.params) :
    Inv t := by
  obtain ⟨h1, h2, h3, h4, h5, h6, h7, h8, h9, h10, h11, h12, h13, h14, h15⟩ := h
  have hn : ∀ id k b, names t id k b ↔ names s id k b := by
    intro id k b; unfold names; rw [h11]
  obtain ⟨i1, i2, i3, i4, i5, i6, i7, i8, i9, i10, i11, i12, i13, i14, i15, i16, i17, i18⟩ := hi
  constructor <;> simp only [h1, h2, h3, h4, h7, h8, h9, h10, h11, h12, h13, h14, hp, hn] <;>
    assumption

theorem inv_takeInput {s : State} (hi : Inv s) : Inv (takeInput s) :=
  inv_of_sameBlock hi (by simp [sameBlock]) rfl

theorem inv_complete {s : State} (hi : Inv s) (r : Result) : Inv (complete s r) :=
  inv_of_sameBlock hi (by simp [sameBlock]) rfl

theorem inv_clk_ne_dat {s : State} (hi : Inv s) : s.params.clkBit ≠ s.params.datBit := by
  have := hi.admissible
  simp only [Params.admissible, Bool.and_eq_true, decide_eq_true_eq] at this
  exact this.1.1.1.1.1.1.1

/-- A steady-state fault keeps the invariant (60_exceptions.md R213). -/
theorem inv_fault {s : State} (hi : Inv s) (hr : s.status = .running) (d : Direction) :
    Inv { s with status := .faulted, cause := .transport d } := by
  obtain ⟨i1, i2, i3, i4, i5, i6, i7, i8, i9, i10, i11, i12, i13, i14, i15, i16, i17, i18⟩ := hi
  constructor <;> first | assumption | simp [*]

/-- The colour path and the encoder write SNAP, FRAME, BRT and MBOX only. -/
theorem inv_colourPath {s : State} (hi : Inv s) (m : Mbox) (snap : Byte) (f : List Byte)
    (brt : Byte) (h1 : snap &&& ~~~ pinMask s.params = 0#8)
    (h2 : ∀ x ∈ f, x &&& ~~~ pinMask s.params = 0#8)
    (h3 : f.length % 16 = 0) :
    Inv { s with mbox := m, snap := snap, frame := f, brt := brt } := by
  obtain ⟨i1, i2, i3, i4, i5, i6, i7, i8, i9, i10, i11, i12, i13, i14, i15, i16, i17, i18⟩ := hi
  exact ⟨i1, h1, h2, h3, i5, i6, i7, i8, i9, i10, i11, i12, i13, i14, i15, i16, i17, i18⟩

/-- An image from a snapshot whose other pins are 0 has them 0 (40_encoder.md R123). -/
theorem image_other (p : Params) (s0 b : Byte) (h : s0 &&& ~~~ pinMask p = 0#8) :
    ∀ x ∈ image p s0 b, x &&& ~~~ pinMask p = 0#8 := by
  intro x hx
  obtain ⟨j, -, rfl⟩ := List.mem_map.mp hx
  rw [imageSnapshot_other, h]

/-- A poll cycle keeps the invariant (41_detector.md R166). -/
theorem inv_eval {s : State} (hi : Inv s) (v : Byte) (n : Time) : Inv (eval v n s) := by
  obtain ⟨h1, h2, h3, h4⟩ := eval_spec v n (wired_of_inv hi)
  have hf := eval_frame v n s
  have hlen : (eval v n s).ep.length = s.ep.length := by
    apply le_antisymm
    · by_contra hc
      have := h3 s.ep.length
      rw [List.getElem?_eq_none (le_rfl)] at this
      simp at this; omega
    · by_contra hc
      have := h3 (eval v n s).ep.length
      rw [List.getElem?_eq_none (le_rfl)] at this
      simp at this; omega
  have hmem : ∀ x ∈ (eval v n s).ep, ∃ y ∈ s.ep, x = afterEdge s v n y := by
    intro x hx
    obtain ⟨i, hi⟩ := List.mem_iff_getElem?.mp hx
    rw [h3] at hi
    cases hy : s.ep[i]? with
    | none => rw [hy] at hi; cases hi
    | some y => rw [hy] at hi; exact ⟨y, List.mem_of_getElem? hy, by simpa using hi.symm⟩
  constructor
  · simpa using hi.admissible
  · simpa using hi.snapOther
  · simpa using hi.frameOther
  · simpa using hi.frameLen
  · exact h4.t0Iff
  · rw [hlen]; simpa using hi.nextEp
  · simpa using hi.epMax
  · exact h4.psubMem
  · exact h4.rsubMem
  · exact h4.psubNodup
  · exact h4.rsubNodup
  · intro x hx
    obtain ⟨y, hy, rfl⟩ := hmem x hx
    have := hi.room y hy
    simp only [afterEdge, eval_keeps_params]
    cases offered s v n y.kind y.btn with
    | none => exact this
    | some p =>
      simp only [afterOffer]
      split
      · simp; omega
      · exact this
  · intro x hx
    obtain ⟨y, hy, rfl⟩ := hmem x hx
    have := hi.payloads y hy
    intro p hp
    simp only [afterEdge] at hp ⊢
    cases ho : offered s v n y.kind y.btn with
    | none => rw [ho] at hp; exact this p hp
    | some q =>
      rw [ho] at hp
      simp only [afterOffer] at hp
      have hq : fits y.kind q = true := by
        unfold offered at ho
        split at ho
        · rename_i hk
          rw [hk]
          split at ho
          · cases ho; rfl
          · cases ho
        · rename_i hk
          rw [hk]
          split at ho
          · cases ht : s.t0[y.btn] with
            | none => rw [ht] at ho; cases ho
            | some t => rw [ht] at ho; cases ho; rfl
          · cases ho
      split at hp
      · rcases List.mem_append.mp hp with h | h
        · exact this p h
        · rw [List.mem_singleton] at h; rw [h]; exact hq
      · exact this p hp
  · simpa using hi.causeNone
  · simpa using hi.causeSetup
  · simpa using hi.causeFault
  · simpa using hi.gammaSet
  · simpa using hi.intervalSet

/-- The endpoints named after one more has been created. -/
theorem names_append {s : State} (k : Kind) (b : Button) (id : Nat) (k' : Kind) (b' : Button) :
    names { s with ep := s.ep ++ [⟨k, b, []⟩] } id k' b'
      ↔ names s id k' b' ∨ (id = s.ep.length ∧ k = k' ∧ b = b') := by
  unfold names
  dsimp only
  rcases Nat.lt_trichotomy id s.ep.length with h | h | h
  · rw [List.getElem?_append_left h]
    constructor
    · exact .inl
    · rintro (h' | ⟨h', _⟩)
      · exact h'
      · omega
  · subst h
    simp
  · rw [List.getElem?_eq_none (by simp; omega)]
    constructor
    · rintro ⟨x, hx, _⟩; cases hx
    · rintro (⟨x, hx, _⟩ | ⟨h', _⟩)
      · rw [List.getElem?_eq_none (by omega)] at hx; cases hx
      · omega

theorem nextEp_unnamed {s : State} (hi : Inv s) (k : Kind) (b : Button) :
    ¬ names s s.nextEp k b := by
  rintro ⟨x, hx, -⟩
  rw [← hi.nextEp] at hx
  simp at hx

/-- A new PRESS endpoint keeps the invariant (41_detector.md R171). -/
theorem inv_subp {s : State} (hi : Inv s) (b : Button) (hn : s.nextEp ≠ Config.nEpMax) :
    Inv { newEndpoint .press b s with psub := s.psub.set b (s.psub[b] ++ [s.nextEp]) } := by
  have hm : ∀ id k c,
      names { newEndpoint .press b s with psub := s.psub.set b (s.psub[b] ++ [s.nextEp]) } id k c ↔ _ :=
    fun id k c => names_append (s := s) .press b id k c
  have hne := nextEp_unnamed hi
  obtain ⟨i1, i2, i3, i4, i5, i6, i7, i8, i9, i10, i11, i12, i13, i14, i15, i16, i17, i18⟩ := hi
  constructor <;> try assumption
  · simp [i6]
  · have h1 : s.nextEp ≤ 65536 := i7
    have h2 : s.nextEp ≠ 65536 := hn
    show s.nextEp + 1 ≤ 65536
    omega
  · intro c id
    rw [hm]
    by_cases h : c = b
    · subst h
      have := i8 c id
      simp only [Fin.getElem_fin] at this
      simp [this, i6]
    · have : b.val ≠ c.val := fun h' => h (Fin.ext h'.symm)
      have h8 := i8 c id
      simp only [Fin.getElem_fin] at h8
      simp [this, h8, Ne.symm h]
  · intro c id
    rw [hm]
    show id ∈ s.rsub[c] ↔ _
    rw [i9]; simp
  · intro c
    by_cases h : c = b
    · subst h
      have := i10 c
      simp only [Fin.getElem_fin] at this
      simp [List.nodup_append, this]
      intro a ha heq; subst heq
      exact hne _ _ ((i8 _ _).mp ha)
    · have : b.val ≠ c.val := fun h' => h (Fin.ext h'.symm)
      have h10 := i10 c
      simp only [Fin.getElem_fin] at h10
      simp [this, h10]
  · intro x hx
    rcases List.mem_append.mp hx with h | h
    · exact i12 x h
    · rw [List.mem_singleton] at h; subst h; exact Nat.zero_le _
  · intro x hx
    rcases List.mem_append.mp hx with h | h
    · exact i13 x h
    · rw [List.mem_singleton] at h; subst h; simp

/-- A new RELEASE endpoint keeps the invariant (41_detector.md R172). -/
theorem inv_subr {s : State} (hi : Inv s) (b : Button) (hn : s.nextEp ≠ Config.nEpMax) :
    Inv { newEndpoint .release b s with rsub := s.rsub.set b (s.rsub[b] ++ [s.nextEp]) } := by
  have hm : ∀ id k c,
      names { newEndpoint .release b s with rsub := s.rsub.set b (s.rsub[b] ++ [s.nextEp]) } id k c ↔ _ :=
    fun id k c => names_append (s := s) .release b id k c
  have hne := nextEp_unnamed hi
  obtain ⟨i1, i2, i3, i4, i5, i6, i7, i8, i9, i10, i11, i12, i13, i14, i15, i16, i17, i18⟩ := hi
  constructor <;> try assumption
  · simp [i6]
  · have h1 : s.nextEp ≤ 65536 := i7
    have h2 : s.nextEp ≠ 65536 := hn
    show s.nextEp + 1 ≤ 65536
    omega
  · intro c id
    rw [hm]
    show id ∈ s.psub[c] ↔ _
    rw [i8]; simp
  · intro c id
    rw [hm]
    by_cases h : c = b
    · subst h
      have := i9 c id
      simp only [Fin.getElem_fin] at this
      simp [this, i6]
    · have : b.val ≠ c.val := fun h' => h (Fin.ext h'.symm)
      have h8 := i9 c id
      simp only [Fin.getElem_fin] at h8
      simp [this, h8, Ne.symm h]
  · intro c
    by_cases h : c = b
    · subst h
      have := i11 c
      simp only [Fin.getElem_fin] at this
      simp [List.nodup_append, this]
      intro a ha heq; subst heq
      exact hne _ _ ((i9 _ _).mp ha)
    · have : b.val ≠ c.val := fun h' => h (Fin.ext h'.symm)
      have h10 := i11 c
      simp only [Fin.getElem_fin] at h10
      simp [this, h10]
  · intro x hx
    rcases List.mem_append.mp hx with h | h
    · exact i12 x h
    · rw [List.mem_singleton] at h; subst h; exact Nat.zero_le _
  · intro x hx
    rcases List.mem_append.mp hx with h | h
    · exact i13 x h
    · rw [List.mem_singleton] at h; subst h; simp

/-- Taking the oldest payload keeps the invariant (41_detector.md R173). -/
theorem inv_recv {s : State} (hi : Inv s) (e : Nat) (x : Endpoint) (p : Payload)
    (rest : List Payload) (hx : s.ep[e]? = some x) (hq : x.q = p :: rest) :
    Inv { s with ep := s.ep.set e { x with q := rest } } := by
  have hm : ∀ id k c,
      names { s with ep := s.ep.set e { x with q := rest } } id k c ↔ names s id k c := by
    intro id k c
    have := (List.getElem?_eq_some_iff.mp hx).1
    unfold names
    by_cases h : id = e
    · subst h
      have hx' := (List.getElem?_eq_some_iff.mp hx).2
      simp [hx', this]
    · simp [Ne.symm h]
  have hmem := List.mem_of_getElem? hx
  have key : ∀ y ∈ s.ep.set e { x with q := rest },
      y ∈ s.ep ∨ y = { x with q := rest } := by
    intro y hy; exact (List.mem_or_eq_of_mem_set hy)
  obtain ⟨i1, i2, i3, i4, i5, i6, i7, i8, i9, i10, i11, i12, i13, i14, i15, i16, i17, i18⟩ := hi
  constructor <;> try assumption
  · simp [i6]
  · intro c id; rw [hm]; exact i8 c id
  · intro c id; rw [hm]; exact i9 c id
  · intro y hy
    rcases key y hy with h | h
    · exact i12 y h
    · subst h
      have := i12 x hmem; rw [hq] at this; simp at this ⊢; omega
  · intro y hy
    rcases key y hy with h | h
    · exact i13 y h
    · subst h
      have := i13 x hmem; rw [hq] at this
      intro p hp; exact this p (List.mem_cons_of_mem _ hp)

end Sys2Proof.Machine
end

