-- ==== Sys2Proof/Laws/PerInstr.lean ====
section
/-! SUPPORT. Statements about every operation as syntax, one lemma per constructor. -/

namespace Sys2Proof.Laws.EncodeSpells

open Sys2Proof.Safety

/-- The row of 30_encoding.md R97 that an operation belongs to. -/
def rowOf : Instr → Row
  | .setcolor _ _ _ => ⟨0x01000000#32, 0xFF000000#32, false, false⟩
  | .setbrt _ => ⟨0x02000000#32, 0xFFFFFF00#32, false, false⟩
  | .subp _ => ⟨0x03000000#32, 0xFFFFFFF8#32, true, false⟩
  | .subr _ => ⟨0x04000000#32, 0xFFFFFFF8#32, true, false⟩
  | .halt => ⟨0x05000000#32, 0xFFFFFFFF#32, false, false⟩
  | .recv _ => ⟨0x06000000#32, 0xFFFF0000#32, false, false⟩
  | .encb _ => ⟨0x10000000#32, 0xFFFFFF00#32, false, true⟩
  | .sample _ => ⟨0x11000000#32, 0xFFFFFF00#32, false, true⟩

/-- A well-formed operation's word spells its row of the operation map, and the row is of the
operation's class. -/
def Statement (i : Instr) : Prop :=
  i.wf = true → rowOf i ∈ rows ∧ (rowOf i).bench = i.isBench
    ∧ (rowOf i).spells true (encode i) = true

theorem and_zero_byte (x : Byte) : x &&& 0x00#8 = 0x00#8 := by simp

theorem setcolor (r g b : Byte) : Statement (.setcolor r g b) := by
  intro _
  refine ⟨by simp [rowOf, rows], rfl, ?_⟩
  have := bytes_and 0x01#8 r g b 0xFF#8 0x00#8 0x00#8 0x00#8
  rw [and_zero_byte, and_zero_byte, and_zero_byte] at this
  simp only [Row.spells, rowOf, Bool.not_false, Bool.true_or, Bool.and_true]
  exact decide_eq_true this

theorem setbrt (l : Byte) : Statement (.setbrt l) := by
  intro _
  refine ⟨by simp [rowOf, rows], rfl, ?_⟩
  have := bytes_and 0x02#8 0x00#8 0x00#8 l 0xFF#8 0xFF#8 0xFF#8 0x00#8
  rw [and_zero_byte] at this
  simp only [Row.spells, rowOf, Bool.not_false, Bool.true_or, Bool.and_true]
  exact decide_eq_true this

theorem subp (n : BitVec 3) : Statement (.subp n) := by
  unfold Statement
  revert n
  decide

theorem subr (n : BitVec 3) : Statement (.subr n) := by
  unfold Statement
  revert n
  decide

theorem halt : Statement .halt := by
  unfold Statement
  decide

theorem recv (e : EpId) : Statement (.recv e) := by
  intro _
  refine ⟨by simp [rowOf, rows], rfl, ?_⟩
  have split : (0x06#8 ++ 0#8 ++ e : BitVec 32)
      = 0x06#8 ++ 0#8 ++ e.extractLsb' 8 8 ++ e.extractLsb' 0 8 := by
    apply BitVec.eq_of_getLsbD_eq
    intro i hi
    simp
    grind
  have := bytes_and 0x06#8 0x00#8 (e.extractLsb' 8 8) (e.extractLsb' 0 8)
    0xFF#8 0xFF#8 0x00#8 0x00#8
  rw [and_zero_byte, and_zero_byte, ← split] at this
  simp only [Row.spells, rowOf, Bool.not_false, Bool.true_or, Bool.and_true]
  exact decide_eq_true this

theorem encb (b : Byte) : Statement (.encb b) := by
  intro _
  refine ⟨by simp [rowOf, rows], rfl, ?_⟩
  have := bytes_and 0x10#8 0x00#8 0x00#8 b 0xFF#8 0xFF#8 0xFF#8 0x00#8
  rw [and_zero_byte] at this
  simp only [Row.spells, rowOf, Bool.not_false, Bool.not_true, Bool.true_or,
    Bool.false_or, Bool.and_true]
  exact decide_eq_true this

theorem sample (v : Byte) : Statement (.sample v) := by
  intro _
  refine ⟨by simp [rowOf, rows], rfl, ?_⟩
  have := bytes_and 0x11#8 0x00#8 0x00#8 v 0xFF#8 0xFF#8 0xFF#8 0x00#8
  rw [and_zero_byte] at this
  simp only [Row.spells, rowOf, Bool.not_false, Bool.not_true, Bool.true_or,
    Bool.false_or, Bool.and_true]
  exact decide_eq_true this

end Sys2Proof.Laws.EncodeSpells
end

