-- ==== Sys2Proof/Tests/Slice0.lean ====
section
/-! SUPPORT. Tests with expected results taken from spec/95_test_vectors.md, and for every obligation
with hypotheses a named witness that meets them. -/

namespace Sys2Proof.Tests

open Sys2Proof.Machine Sys2Proof.Safety

/-! ## Helpers -/

/-- The identity table of every vector in 95_test_vectors.md. -/
def identity : Vector Byte 256 := Vector.ofFn fun i => BitVec.ofNat 8 i.val

/-- The parameters of 95_test_vectors.md, with EP_CAP and BENCH given. -/
def params (cap : Nat) (bench : Bool) : Params :=
  { Config.params with gammaDefault := identity, epCap := cap, bench := bench }

/-- The state after reset of a block with those parameters. -/
def fresh (cap : Nat) (bench : Bool) : State := { State.reset with params := params cap bench }

/-- The standard start state of 95_test_vectors.md, without the transactions it has seen. -/
def start (cap : Nat) (bench : Bool) : State :=
  { fresh cap bench with
    status := .running, gamma := some identity, pollInterval := some 50000000#64 }

/-- The standard start state with a colour request pending. -/
def full (cap : Nat) : State := { start cap true with mbox := .full 255#8 0#8 0#8 }

/-- The standard start state after a transport fault. -/
def faulted : State := { start 1 true with status := .faulted, cause := .transport .write }

/-- The state with the coming input given. -/
def turned (t : Turn) (now : Time) (s : State) : State := { s with env := [⟨now, t⟩] }

/-- The state with the host about to present a word. -/
def hosting (cw : Word) (s : State) : State :=
  { s with program := [cw], pi := 0, env := [⟨0#64, .host⟩] }

/-- Something of the next state. -/
def after {α : Type} (o : Host.Outcome State Fault Refusal) (f : State → α) : Option α :=
  match o with
  | .next t => some (f t)
  | .fault _ => none
  | .refused _ => none

/-- Endpoints 0 and 1 of button 2, as after `SUBP 2` and `SUBR 2`, with given queues. -/
def wired (q0 q1 : List Payload) : State :=
  { start 1 true with
    ep := [⟨.press, 2, q0⟩, ⟨.release, 2, q1⟩], nextEp := 2
    psub := #v[[], [], [0], [], []], rsub := #v[[], [], [1], [], []] }

/-! ## WellFormed: each check refuses an ill-formed term -/

theorem test_wf_subp_above_four : (Instr.subp 5#3).wf = false := by decide

theorem test_wf_subr_above_four : (Instr.subr 7#3).wf = false := by decide

theorem test_wf_largest_button : (Instr.subp 4#3).wf = true ∧ (Instr.subr 4#3).wf = true := by decide

theorem test_bench_refused :
    (Instr.encb 0x41#8).accepted false = false ∧ (Instr.sample 0x01#8).accepted false = false := by
  decide

theorem test_params_admissible : (params 1 true).admissible = true := by decide

theorem test_params_same_pin : { params 1 true with datBit := 6 }.admissible = false := by decide

theorem test_params_same_registers :
    { params 1 true with regOut := 0x00#8 }.admissible = false
      ∧ { params 1 true with regPol := 0x00#8 }.admissible = false
      ∧ { params 1 true with regCfg := 0x00#8 }.admissible = false
      ∧ { params 1 true with regPol := 0x01#8 }.admissible = false
      ∧ { params 1 true with regCfg := 0x01#8 }.admissible = false
      ∧ { params 1 true with regCfg := 0x02#8 }.admissible = false := by
  decide

theorem test_params_no_room : (params 0 true).admissible = false := by decide

/-! ## Decode: words written out from 30_encoding.md R97 (95_test_vectors.md L2.6) -/

theorem test_decode_setcolor :
    decode true 0x01C86432#32 = .ok (.setcolor 200#8 100#8 50#8)
      ∧ decode true 0x01123456#32 = .ok (.setcolor 0x12#8 0x34#8 0x56#8) := by
  decide

theorem test_decode_setbrt : decode true 0x02000005#32 = .ok (.setbrt 5#8) := by decide

theorem test_decode_subp : decode false 0x03000002#32 = .ok (.subp 2#3) := by decide

theorem test_decode_subr : decode false 0x04000002#32 = .ok (.subr 2#3) := by decide

theorem test_decode_halt : decode false 0x05000000#32 = .ok .halt := by decide

theorem test_decode_recv :
    decode false 0x0600012C#32 = .ok (.recv 300#16)
      ∧ decode false 0x0600FFFF#32 = .ok (.recv 65535#16) := by
  decide

theorem test_decode_encb : decode true 0x100000FF#32 = .ok (.encb 0xFF#8) := by decide

theorem test_decode_sample : decode true 0x11000016#32 = .ok (.sample 0x16#8) := by decide

theorem test_decode_unassigned :
    decode true 0x07000000#32 = .error (.unassignedOp 0x07#8)
      ∧ decode true 0xFFFFFFFF#32 = .error (.unassignedOp 0xFF#8) := by
  decide

theorem test_decode_reserved :
    decode true 0x02010080#32 = .error .reservedNotZero
      ∧ decode true 0x04000105#32 = .error .reservedNotZero
      ∧ decode true 0x05000001#32 = .error .reservedNotZero
      ∧ decode true 0x06010000#32 = .error .reservedNotZero
      ∧ decode true 0x10000141#32 = .error .reservedNotZero := by
  decide

theorem test_decode_bench : decode false 0x11000001#32 = .error .benchDisabled := by decide

theorem test_encode_words :
    encode (.setcolor 10#8 20#8 30#8) = 0x010A141E#32 ∧ encode (.setbrt 255#8) = 0x020000FF#32
      ∧ encode (.subp 4#3) = 0x03000004#32 ∧ encode (.subr 2#3) = 0x04000002#32
      ∧ encode .halt = 0x05000000#32 ∧ encode (.recv 1#16) = 0x06000001#32
      ∧ encode (.encb 0x00#8) = 0x10000000#32 ∧ encode (.sample 0xF6#8) = 0x110000F6#32 := by
  decide

theorem test_table_word :
    decodeTableWord 32 0x01FF0000 = some (.setcolor 255#8 0#8 0#8)
      ∧ decodeTableWord 32 0x03000005 = none := by
  decide

/-! ## Operations (95_test_vectors.md L2.1 to L2.5) -/

theorem test_setcolor_deposits :
    after (exec (.setcolor 255#8 0#8 0#8) (start 1 true)) (fun t => (t.mbox, t.results, t.pi))
      = some (.full 255#8 0#8 0#8, [.ok], 1) := by
  decide

theorem test_setcolor_holds :
    after (exec (.setcolor 0#8 255#8 0#8) (full 1)) (fun t => (t.mbox, t.results, t.pi))
      = some (.full 255#8 0#8 0#8, [], 0) := by
  decide

theorem test_setbrt_writes :
    after (exec (.setbrt 128#8) (start 1 true)) (fun t => (t.brt, t.results))
      = some (128#8, [.ok]) := by
  decide

theorem test_setbrt_faulted :
    after (exec (.setbrt 5#8) faulted) (fun t => (t.brt, t.results))
      = some (255#8, [.err (.notRunning .faulted (.transport .write))]) := by
  decide

theorem test_halt_requests_black :
    after (exec .halt (start 1 true)) (fun t => (t.mbox, t.status))
      = some (.full 0#8 0#8 0#8, .running) := by
  decide

theorem test_halt_holds :
    after (exec .halt (full 1)) (fun t => (t.mbox, t.results)) = some (.full 255#8 0#8 0#8, []) := by
  decide

/-- The row S0 = 15, b = 80: other pins kept, bit 7 goes out first. -/
theorem test_encb_keeps_other_pins :
    after (exec (.encb 0x80#8) { start 1 true with snap := 0x15#8 }) (fun t => (t.snap, t.frame))
      = some (0x55#8, [0x95#8, 0xD5#8, 0x15#8, 0x55#8, 0x15#8, 0x55#8, 0x15#8, 0x55#8, 0x15#8, 0x55#8,
          0x15#8, 0x55#8, 0x15#8, 0x55#8, 0x15#8, 0x55#8]) := by
  decide +kernel

/-- The row CLK_BIT = 7, DAT_BIT = 0, b = 81: other pin positions. -/
theorem test_encb_other_positions :
    after (exec (.encb 0x81#8)
        { start 1 true with params := { params 1 true with clkBit := 7, datBit := 0 } })
        (fun t => (t.snap, t.frame))
      = some (0x81#8, [0x01#8, 0x81#8, 0x00#8, 0x80#8, 0x00#8, 0x80#8, 0x00#8, 0x80#8, 0x00#8, 0x80#8,
          0x00#8, 0x80#8, 0x00#8, 0x80#8, 0x01#8, 0x81#8]) := by
  decide +kernel

theorem test_subp_second_of_a_button :
    after (exec (.subp 2#3) (wired [] [])) (fun t => (t.ep[2]?, t.psub[2], t.nextEp, t.results))
      = some (some ⟨.press, 2, []⟩, [0, 2], 3, [.okEp 2#16]) := by
  decide

theorem test_subp_registry_full :
    after (exec (.subp 0#3) { start 1 true with nextEp := 65536 }) (fun t => (t.nextEp, t.results))
      = some (65536, [.err .registryFull]) := by
  decide

theorem test_subr_creates :
    after (exec (.subr 2#3) (start 1 true)) (fun t => (t.ep, t.rsub[2], t.nextEp, t.results))
      = some ([⟨.release, 2, []⟩], [0], 1, [.okEp 0#16]) := by
  decide

theorem test_recv_release :
    after (exec (.recv 1#16) (wired [] [.duration 50000000#64])) (fun t => (t.ep, t.results))
      = some ([⟨.press, 2, []⟩, ⟨.release, 2, []⟩], [.okRelease 50000000#64]) := by
  decide

theorem test_recv_unknown :
    after (exec (.recv 7#16) (wired [] [])) (fun t => (t.nextEp, t.results))
      = some (2, [.err (.illegalCommand 0x06000007#32)]) := by
  decide

/-- A press edge with a full queue: the table changes, the notification is dropped. -/
theorem test_sample_press_dropped :
    after (exec (.sample 0x04#8) { wired [.unit] [] with now := 100000000#64 })
        (fun t => (t.pressed, t.t0[2], t.ep[0]?, t.lastPoll))
      = some (#v[false, false, true, false, false], some 100000000#64,
          some ⟨.press, 2, [.unit]⟩, some 100000000#64) := by
  decide

/-- The row "counter wrap": pressed at 2^64 - 10, released at 5. -/
theorem test_sample_release_wraps :
    after (exec (.sample 0xE0#8)
        { wired [] [] with
          now := 5#64, pressed := #v[false, false, true, false, false]
          t0 := #v[none, none, some 18446744073709551606#64, none, none] })
        (fun t => (t.pressed[2], t.t0[2], t.ep[1]?))
      = some (false, none, some ⟨.release, 2, [.duration 15#64]⟩) := by
  decide

/-! ## Agents, boot, and the first instruction after reset -/

/-- The frame of (200, 100, 50) at brightness 128 (95_test_vectors.md L2.2), rows 48 to 95. -/
theorem test_ledstep_frame :
    after (step (turned (.led .ok) 0#64
        { start 1 true with brt := 128#8, mbox := .full 200#8 100#8 50#8 }))
        (fun t => ((t.frame.drop 48).take 48, t.snap, t.frame.length))
      = some (
        [0x00#8, 0x40#8, 0x00#8, 0x40#8, 0x00#8, 0x40#8, 0x80#8, 0xC0#8, 0x80#8, 0xC0#8, 0x00#8, 0x40#8,
         0x00#8, 0x40#8, 0x80#8, 0xC0#8,
         0x00#8, 0x40#8, 0x00#8, 0x40#8, 0x80#8, 0xC0#8, 0x80#8, 0xC0#8, 0x00#8, 0x40#8, 0x00#8, 0x40#8,
         0x80#8, 0xC0#8, 0x00#8, 0x40#8,
         0x00#8, 0x40#8, 0x80#8, 0xC0#8, 0x80#8, 0xC0#8, 0x00#8, 0x40#8, 0x00#8, 0x40#8, 0x80#8, 0xC0#8,
         0x00#8, 0x40#8, 0x00#8, 0x40#8], 0x40#8, 128) := by
  decide +kernel

theorem test_ledstep_fault :
    after (step (turned (.led .fail) 0#64 { start 1 true with mbox := .full 1#8 2#8 3#8 }))
        (fun t => (t.mbox, t.status, t.cause, t.frame.length, t.snap))
      = some (.empty, .faulted, .transport .write, 128, 0x40#8) := by
  decide +kernel

theorem test_pollstep_press :
    after (step (turned (.poll (.ok 0x04#8)) 50000000#64 (wired [] [])))
        (fun t => (t.t0[2], t.ep[0]?, t.xfers))
      = some (some 50000000#64, some ⟨.press, 2, [.unit]⟩,
          [⟨0x3F#8, [0x00#8], 1, .ok [0x04#8]⟩]) := by
  decide

theorem test_pollstep_fault :
    after (step (turned (.poll .fail) 50000000#64 (wired [] [])))
        (fun t => (t.status, t.cause, t.ep, t.lastPoll))
      = some (.faulted, .transport .read, [⟨.press, 2, []⟩, ⟨.release, 2, []⟩], none) := by
  decide

theorem test_configure_wrong_length :
    after (step (turned (.configure (some [0x00#8, 0x01#8]) none) 0#64 (fresh 1 true)))
        (fun t => (t.status, t.gamma.isSome, t.bootReturns))
      = some (.reset, false, [.failed (.configurationError "gamma_table")]) := by
  decide

theorem test_init_second_write_fails :
    after (step (turned (.init .ok .fail .ok) 0#64 { fresh 1 true with status := .configured }))
        (fun t => (t.status, t.cause, t.xfers))
      = some (.setupFailed, .setup 1,
          [⟨0x3F#8, [0x03#8, 0x1F#8], 0, .ok []⟩, ⟨0x3F#8, [0x02#8, 0x00#8], 0, .fail⟩]) := by
  decide

/-- From reset an operation is refused (L2.7, the row `SETBRT 9` in RESET). -/
theorem test_first_step_after_reset :
    after (step (State.reset.withFetchWord 32 0x02000009)) (fun t => (t.brt, t.results, t.pi))
      = some (255#8, [.err (.notRunning .reset .none)], 1) := by
  decide

/-- In the standard start state the word placed by `withFetchWord` takes effect. -/
theorem test_fetch_word_runs :
    after (step ((start 1 true).withFetchWord 32 0x01FF0000)) (fun t => (t.mbox, t.results))
      = some (.full 255#8 0#8 0#8, [.ok]) := by
  decide

/-- The order of checks (L2.6): an illegal button comes before NotRunning. -/
theorem test_illegal_before_not_running :
    after (step (hosting 0x03000005#32 faulted)) (fun t => t.results)
      = some [.err (.illegalCommand 0x03000005#32)] := by
  decide

/-! ## Witnesses: states that meet the invariant -/

theorem fresh_inv : Inv (fresh 1 true) := by
  have hn : ∀ id k b, ¬ names (fresh 1 true) id k b := by
    rintro id k b ⟨x, hx, -⟩
    simp [fresh, State.reset] at hx
  refine ⟨by decide, by decide, by decide, by decide, by decide, rfl, by decide, ?_, ?_, by decide,
    by decide, by decide, by decide, fun _ => rfl, (fun h => by cases h), (fun h => by cases h), rfl, rfl⟩
  · intro b id
    have : (fresh 1 true).psub[b] = [] := by revert b; decide
    simp only [this, hn, List.not_mem_nil]
  · intro b id
    have : (fresh 1 true).rsub[b] = [] := by revert b; decide
    simp only [this, hn, List.not_mem_nil]

theorem start_inv : Inv (start 1 true) := by
  obtain ⟨i1, i2, i3, i4, i5, i6, i7, i8, i9, i10, i11, i12, i13, i14, i15, i16, i17, i18⟩ :=
    fresh_inv
  exact ⟨i1, i2, i3, i4, i5, i6, i7, i8, i9, i10, i11, i12, i13, fun _ => rfl,
    (fun h => by cases h), (fun h => by cases h), rfl, rfl⟩

theorem full_inv : Inv (full 1) :=
  inv_colourPath start_inv _ _ _ _ start_inv.snapOther start_inv.frameOther start_inv.frameLen

theorem faulted_inv : Inv faulted := inv_fault start_inv rfl .write

/-- The wired state comes from the start state by `SUBP 2` and `SUBR 2`. -/
theorem wired_inv : Inv (wired [] []) := by
  have h1 := inv_subp start_inv 2 (by decide)
  have h2 := inv_subr h1 2 (by decide)
  exact inv_of_sameBlock h2
    ⟨rfl, rfl, rfl, rfl, rfl, rfl, rfl, rfl, rfl, rfl, rfl, rfl, rfl, rfl, rfl⟩ rfl

/-- One press of button 2 later, its PRESS endpoint holds a notification. -/
theorem pressed_inv : Inv (eval 0x04#8 0#64 (wired [] [])) := inv_eval wired_inv _ _

theorem turned_inv {s : State} (h : Inv s) (t : Turn) (now : Time) : Inv (turned t now s) :=
  inv_of_sameBlock h (by simp [sameBlock, turned]) rfl

theorem hosting_inv {s : State} (h : Inv s) (cw : Word) : Inv (hosting cw s) :=
  inv_of_sameBlock h (by simp [sameBlock, hosting]) rfl

/-! ## Witnesses: encoding and the step -/

theorem witness_DecodeOfEncode :
    (Instr.encb 0xA5#8).accepted true = true ∧ (Instr.subp 4#3).accepted false = true := by decide

theorem witness_EncodeOfDecode : decode false 0x03000004#32 = .ok (.subp 4#3) := by decide

theorem witness_IllegalWordChangesNothing :
    let s := hosting 0x03000005#32 (start 1 true)
    (nextInput s).turn = .host ∧ s.program[s.pi]? = some 0x03000005#32
      ∧ legalWord s.params.bench 0x03000005#32 = false := by
  decide

theorem witness_StepRunsTheDecodedOperation :
    let s := hosting 0x02000080#32 (start 1 true)
    (nextInput s).turn = .host ∧ s.program[s.pi]? = some 0x02000080#32
      ∧ decode s.params.bench 0x02000080#32 = .ok (.setbrt 128#8) := by
  decide

/-! ## Witnesses: unit ENC -/

theorem witness_SetcolorDeposits :
    faulted.status ≠ .running
      ∧ ((full 1).status = .running ∧ (full 1).mbox ≠ .empty)
      ∧ ((start 1 true).status = .running ∧ (start 1 true).mbox = .empty) := by
  decide

theorem witness_SetbrtWritesBrightness :
    faulted.status ≠ .running ∧ (start 1 true).status = .running := by decide

/-- A state for the clause on the command, and for each of the three on the operation. -/
theorem witness_HaltRequestsBlack_gamma : (start 1 true).gamma = some identity := rfl

theorem witness_HaltRequestsBlack :
    faulted.status ≠ .running
      ∧ ((full 1).status = .running ∧ (full 1).mbox ≠ .empty)
      ∧ ((start 1 true).status = .running ∧ (start 1 true).mbox = .empty) := by
  decide

/-- The hypotheses that EncbAppendsTheImage, SnapshotsKeepOtherPins, ImagesDifferInDataOnly and
EncodedByteReadsBack share. -/
theorem witness_EncbRuns :
    (start 1 true).params.clkBit ≠ (start 1 true).params.datBit
      ∧ (start 1 true).params.bench = true ∧ (start 1 true).status = .running := by
  decide

/-- The second clause of ImagesDifferInDataOnly. -/
theorem witness_ImagesDifferInDataOnly :
    (start 1 true).params.clkBit = 6 ∧ (start 1 true).params.datBit = 7
      ∧ (start 1 true).snap = 0x00#8 ∧ (start 1 true).params.bench = true
      ∧ (start 1 true).status = .running := by
  decide

/-- Two states that differ in the clock and data bits of SNAP only. -/
theorem witness_EncbAppendsTheImage :
    let s := start 1 true
    let t := { start 1 true with snap := 0xC0#8 }
    s.params.clkBit ≠ s.params.datBit ∧ s.params = t.params
      ∧ s.snap &&& ~~~ pinMask s.params = t.snap &&& ~~~ pinMask s.params
      ∧ (∃ s', exec (.encb 0xA5#8) s = .next s') ∧ (∃ t', exec (.encb 0xA5#8) t = .next t')
      ∧ s.params.bench = true ∧ s.status = .running ∧ t.status = .running :=
  ⟨by decide, rfl, by decide, ⟨_, rfl⟩, ⟨_, rfl⟩, rfl, rfl, rfl⟩

theorem witness_SnapshotsKeepOtherPins :
    Inv (turned (.led .ok) 0#64 (full 1)) ∧ ∃ t, step (turned (.led .ok) 0#64 (full 1)) = .next t :=
  ⟨turned_inv full_inv _ _, _, rfl⟩

theorem witness_ResolveProperties :
    ({ start 1 true with brt := 0#8 }.gamma = some identity ∧ { start 1 true with brt := 0#8 }.brt = 0#8)
      ∧ ((start 1 true).gamma = some (Vector.ofFn fun i => BitVec.ofNat 8 i.val)
        ∧ (start 1 true).brt = 255#8)
      ∧ ((100#8).toNat ≤ (200#8).toNat ∧ (0#8).toNat ≤ (255#8).toNat) :=
  ⟨⟨rfl, rfl⟩, ⟨rfl, rfl⟩, by decide⟩

theorem witness_LedStepServesOneRequest (ans : WriteAns) :
    let s := turned (.led ans) 0#64 (full 1)
    s.params.clkBit ≠ s.params.datBit ∧ (nextInput s).turn = .led ans ∧ s.status = .running
      ∧ s.mbox = .full 255#8 0#8 0#8 ∧ s.gamma = some identity
      ∧ identity[scaled 255#8 s.brt]? = some 255#8 ∧ identity[scaled 0#8 s.brt]? = some 0#8 := by
  cases ans <;> exact ⟨by decide, rfl, rfl, rfl, rfl, by decide +kernel, by decide +kernel⟩

/-- The clauses of LedStepServesOneRequest and PollStepReadsOnce about a step that is not enabled:
MBOX EMPTY in RUNNING, and FAULTED. -/
theorem witness_NotEnabled :
    (let s := turned (.led .ok) 0#64 (start 1 true)
     (nextInput s).turn = .led .ok ∧ ¬ (s.status = .running ∧ s.mboxFull = true)
       ∧ ∃ t, step s = .next t)
      ∧ (let s := turned (.poll .fail) 0#64 faulted
         (nextInput s).turn = .poll .fail ∧ s.status ≠ .running ∧ ∃ t, step s = .next t) :=
  ⟨⟨rfl, by decide, _, rfl⟩, rfl, by decide, _, rfl⟩

theorem witness_DisabledAgentsDoNothing :
    (nextInput (turned (.led .ok) 0#64 faulted)).turn = .led .ok ∧ faulted.status ≠ .running
      ∧ (nextInput (turned (.led .ok) 0#64 (start 1 true))).turn = .led .ok
      ∧ (start 1 true).mbox = .empty
      ∧ (nextInput (turned (.poll .fail) 0#64 faulted)).turn = .poll .fail := by
  decide

theorem witness_FrameConstantPart :
    let s := turned (.led .ok) 0#64 (full 1)
    s.params.clkBit = 6 ∧ s.params.datBit = 7 ∧ s.snap &&& 0x3F#8 = 0#8
      ∧ (nextInput s).turn = .led .ok ∧ s.status = .running ∧ s.mbox = .full 255#8 0#8 0#8
      ∧ ∃ t, step s = .next t :=
  ⟨rfl, rfl, by decide, rfl, rfl, rfl, _, rfl⟩

/-- A step that finds MBOX FULL and keeps it, and one that fills it. -/
theorem witness_NoRequestIsLost :
    (let s := hosting 0x02000080#32 (full 1)
     (∃ t, step s = .next t) ∧ (nextInput s).turn = .host ∧ s.mbox ≠ .empty)
      ∧ (let s := hosting 0x01FF0000#32 (start 1 true)
         (∃ t, step s = .next t ∧ t.mbox ≠ .empty) ∧ (nextInput s).turn = .host ∧ s.mbox = .empty) :=
  ⟨⟨⟨_, rfl⟩, rfl, by decide⟩, ⟨_, rfl, by decide⟩, rfl, rfl⟩

/-- A host that requests red, then black with HALT, and the LED agent between. -/
def redThenBlack : State := { start 1 true with
  program := [0x01FF0000#32, 0x05000000#32]
  env := [⟨0#64, .host⟩, ⟨1#64, .led .ok⟩, ⟨2#64, .host⟩] }

/-- A run that accepts red, serves it, and accepts black. -/
theorem witness_LedWritesAreTheRequestsInOrder :
    Inv redThenBlack
      ∧ ∃ t, Run redThenBlack [⟨255#8, 0#8, 0#8⟩, ⟨0#8, 0#8, 0#8⟩] [255#8] t
        ∧ t.mbox = .full 0#8 0#8 0#8 := by
  refine ⟨inv_of_sameBlock start_inv (by simp [sameBlock, redThenBlack]) rfl, ?_⟩
  have run := Run.cons redThenBlack _ _ _ _ rfl (by decide)
    (Run.cons _ _ _ _ _ rfl (by decide) (Run.cons _ _ _ _ _ rfl (by decide) (Run.nil _)))
  exact ⟨_, run, rfl⟩

/-- The second clause: a held SETCOLOR, and a held HALT. -/
theorem witness_LedWritesAreTheRequestsInOrder_hold :
    (full 1).status = .running ∧ (full 1).mbox ≠ .empty := by decide

/-! ## Witnesses: unit DET -/

/-- The boundary of the registry: the last id, and one more. -/
def lastId : State := { start 1 true with
  nextEp := 65535, ep := List.replicate 65535 ⟨.press, 0, []⟩ }

theorem witness_SubpCreatesPressEndpoint :
    4 < (5#3).toNat ∧ faulted.status ≠ .running
      ∧ ({ start 1 true with nextEp := 65536 }.status = .running
        ∧ { start 1 true with nextEp := 65536 }.nextEp = 65536)
      ∧ (lastId.status = .running ∧ lastId.nextEp < 65536 ∧ lastId.ep.length = lastId.nextEp) :=
  ⟨by decide, by decide, ⟨rfl, rfl⟩, rfl, by decide, List.length_replicate⟩

theorem witness_SubrCreatesReleaseEndpoint :
    4 < (7#3).toNat ∧ faulted.status ≠ .running
      ∧ ({ start 1 true with nextEp := 65536 }.status = .running
        ∧ { start 1 true with nextEp := 65536 }.nextEp = 65536)
      ∧ (lastId.status = .running ∧ lastId.nextEp < 65536 ∧ lastId.ep.length = lastId.nextEp) :=
  ⟨by decide, by decide, ⟨rfl, rfl⟩, rfl, by decide, List.length_replicate⟩

/-- An unknown id (the first not below NEXT_EP), an empty queue, a press, a release. -/
theorem witness_RecvTakesTheOldest :
    faulted.status ≠ .running
      ∧ ((wired [] []).status = .running ∧ (wired [] []).nextEp ≤ (2#16).toNat)
      ∧ ((1#16).toNat < (wired [] []).nextEp
        ∧ (wired [] []).ep[(1#16).toNat]? = some ⟨.release, 2, []⟩)
      ∧ (wired [.unit] []).ep[(0#16).toNat]? = some ⟨.press, 2, [.unit]⟩
      ∧ (wired [] [.duration 7#64]).ep[(1#16).toNat]? = some ⟨.release, 2, [.duration 7#64]⟩ := by
  decide

theorem witness_SampleIsOnePollCycle :
    (start 1 false).params.bench = false
      ∧ (faulted.params.bench = true ∧ faulted.status ≠ .running)
      ∧ (Inv (wired [] []) ∧ (wired [] []).params.bench = true ∧ (wired [] []).status = .running) :=
  ⟨rfl, ⟨rfl, by decide⟩, wired_inv, rfl, rfl⟩

theorem witness_PollStepReadsOnce :
    (let s := turned (.poll (.ok 0x04#8)) 50000000#64 (wired [] [])
     Inv s ∧ (nextInput s).turn = .poll (.ok 0x04#8) ∧ s.status = .running)
      ∧ (let s := turned (.poll .fail) 50000000#64 (wired [] [])
         (nextInput s).turn = .poll .fail ∧ s.status = .running) :=
  ⟨⟨turned_inv wired_inv _ _, rfl, rfl⟩, rfl, rfl⟩

theorem witness_UpperSampleBitsIgnored :
    (∀ b : Button, (0xF6#8).getLsbD b = (0x16#8).getLsbD b)
      ∧ (start 1 true).params.bench = true := by
  decide

theorem witness_PressThenReleaseSequence :
    let s := wired [] []
    Inv s ∧ s.params.bench = true ∧ s.status = .running ∧ s.pressed[2] = false ∧ s.psub[2] = [0]
      ∧ s.rsub[2] = [1] ∧ s.ep[0]? = some ⟨.press, 2, []⟩ ∧ s.ep[1]? = some ⟨.release, 2, []⟩
      ∧ s.pollInterval = some 50000000#64 ∧ notBefore 50000000#64 100000000#64 :=
  ⟨wired_inv, rfl, rfl, rfl, rfl, rfl, rfl, rfl, rfl, by unfold notBefore; decide⟩

/-! ## Witnesses: errors, holds, faults -/

theorem witness_NotRunningRefusesAll :
    (Instr.encb 0#8).accepted faulted.params.bench = true ∧ faulted.status ≠ .running := by decide

theorem witness_IllegalComesFirst :
    (Instr.sample 0#8).accepted (start 1 false).params.bench = false
      ∧ (Instr.subp 5#3).accepted faulted.params.bench = false := by
  decide

/-- Both holds: SETCOLOR on a full mailbox, RECV on an empty queue. -/
theorem witness_TwoHoldsOnly :
    (Inv (full 1) ∧ exec (.setcolor 0#8 0#8 0#8) (full 1) = .next (full 1))
      ∧ (Inv (wired [] []) ∧ exec (.recv 1#16) (wired [] []) = .next (wired [] [])) :=
  ⟨⟨full_inv, rfl⟩, wired_inv, rfl⟩

theorem witness_EveryOperationAnswers : Inv (wired [] []) := wired_inv

/-- A held SETCOLOR and a failed button read. -/
theorem witness_HeldOperationSeesTheFault :
    let s := { hosting 0x01000000#32 (full 1) with
      env := [⟨1#64, .host⟩, ⟨2#64, .poll .fail⟩, ⟨3#64, .host⟩] }
    Inv s ∧ s.status = .running ∧ s.program[s.pi]? = some 0x01000000#32
      ∧ decode s.params.bench 0x01000000#32 = .ok (.setcolor 0#8 0#8 0#8)
      ∧ exec (.setcolor 0#8 0#8 0#8) { s with now := 1#64, env := s.env.tail, steps := s.steps + 1 }
        = .next { s with now := 1#64, env := s.env.tail, steps := s.steps + 1 } :=
  ⟨inv_of_sameBlock full_inv (by simp [sameBlock, hosting]) rfl, rfl, rfl, by decide, rfl⟩

/-- A held HALT and a failed LED write. -/
theorem witness_HeldOperationSeesTheFault_write :
    let s := { hosting 0x05000000#32 (full 1) with
      env := [⟨1#64, .host⟩, ⟨2#64, .led .fail⟩, ⟨3#64, .host⟩] }
    Inv s ∧ s.status = .running ∧ s.mbox ≠ .empty ∧ s.program[s.pi]? = some 0x05000000#32
      ∧ decode s.params.bench 0x05000000#32 = .ok .halt
      ∧ exec .halt { s with now := 1#64, env := s.env.tail, steps := s.steps + 1 }
        = .next { s with now := 1#64, env := s.env.tail, steps := s.steps + 1 } :=
  ⟨inv_of_sameBlock full_inv (by simp [sameBlock, hosting]) rfl, rfl, by decide, rfl, by decide, rfl⟩

/-- A held RECV and a failed LED write. -/
theorem witness_HeldOperationSeesTheFault_recv :
    let s := { hosting 0x06000001#32 { wired [] [] with mbox := .full 1#8 2#8 3#8 } with
      env := [⟨1#64, .host⟩, ⟨2#64, .led .fail⟩, ⟨3#64, .host⟩] }
    Inv s ∧ s.status = .running ∧ s.mbox ≠ .empty ∧ s.program[s.pi]? = some 0x06000001#32
      ∧ decode s.params.bench 0x06000001#32 = .ok (.recv 1#16)
      ∧ exec (.recv 1#16) { s with now := 1#64, env := s.env.tail, steps := s.steps + 1 }
        = .next { s with now := 1#64, env := s.env.tail, steps := s.steps + 1 } :=
  ⟨inv_of_sameBlock (inv_colourPath wired_inv (.full 1#8 2#8 3#8) _ _ 255#8 wired_inv.snapOther
      wired_inv.frameOther wired_inv.frameLen)
      ⟨rfl, rfl, rfl, rfl, rfl, rfl, rfl, rfl, rfl, rfl, rfl, rfl, rfl, rfl, rfl⟩ rfl,
    rfl, by decide, rfl, by decide, rfl⟩

/-- Both terminal states, with an operation presented. -/
theorem witness_TerminalUntilReset :
    (let s := hosting 0x02000005#32 faulted
     s.status = .faulted ∧ (∃ t, step s = .next t) ∧ (nextInput s).turn ≠ .reset)
      ∧ (let s := hosting 0x07000000#32 { start 1 true with status := .setupFailed, cause := .setup 1 }
         s.status = .setupFailed ∧ (∃ t, step s = .next t) ∧ (nextInput s).turn ≠ .reset) :=
  ⟨⟨rfl, ⟨_, rfl⟩, by decide⟩, rfl, ⟨_, rfl⟩, by decide⟩

/-! ## Witnesses: reset and boot -/

theorem witness_ResetFromAnyState : (nextInput (turned .reset 0#64 faulted)).turn = .reset := rfl

theorem witness_ConfigureInstallsOrRefuses :
    (let s := turned (.configure none none) 0#64 (start 1 true)
     (nextInput s).turn = .configure none none ∧ s.status ≠ .reset)
      ∧ (let s := turned (.configure (some (List.replicate 255 0#8)) none) 0#64 (fresh 1 true)
         (nextInput s).turn = .configure (some (List.replicate 255 0#8)) none ∧ s.status = .reset
           ∧ (List.replicate 255 0#8).length ≠ 256)
      ∧ (let s := turned (.configure (some (List.replicate 256 0#8)) none) 0#64 (fresh 1 true)
         (nextInput s).turn = .configure (some (List.replicate 256 0#8)) none ∧ s.status = .reset
           ∧ (List.replicate 256 0#8).length = 256)
      ∧ (let s := turned (.configure none (some 0#64)) 0#64 (fresh 1 true)
         (nextInput s).turn = .configure none (some 0#64) ∧ s.status = .reset) :=
  ⟨⟨rfl, by decide⟩, ⟨rfl, rfl, by decide +kernel⟩, ⟨rfl, rfl, by decide +kernel⟩, rfl, rfl⟩

/-- The clauses of InitWritesInOrder: any answers to the three writes, in CONFIGURED. -/
theorem witness_InitWritesInOrder (a0 a1 a2 : WriteAns) :
    let s := turned (.init a0 a1 a2) 0#64 { fresh 1 true with status := .configured }
    (nextInput s).turn = .init a0 a1 a2 ∧ s.status = .configured :=
  ⟨rfl, rfl⟩

theorem witness_NothingMovesBeforeRunning :
    let s := turned (.configure none none) 0#64 (fresh 1 true)
    UntouchedBeforeRunning s ∧ (∃ t, step s = .next t ∧ t.status = .configured)
      ∧ s.status = .reset :=
  ⟨fun _ => by unfold untouched; decide, ⟨_, rfl, rfl⟩, rfl⟩

/-! ## Witnesses: rules of the whole machine -/

/-- The premises that StatusFollowsItsPath, ConditionsChangeAsListed, StepKeepsTheInvariant,
StepNeverFaults, TableIsImmutable, IndexAdvancesWithResults, FiveShapesOfTransaction and
ParametersNeverChange share: a step from a state of the invariant that is not a reset. -/
theorem witness_StepFromInv :
    let s := hosting 0x110000E4#32 (wired [] [])
    Inv s ∧ (∃ t, step s = .next t) ∧ (nextInput s).turn ≠ .reset ∧ s.status ≠ .reset :=
  ⟨hosting_inv wired_inv _, ⟨_, rfl⟩, by decide, by decide⟩

/-- The clauses of ConditionsChangeAsListed about buttons and queues, set: a press of button 2 into
an endpoint of capacity 1. -/
theorem witness_ConditionsSetBySample :
    let s := hosting 0x11000004#32 (wired [] [])
    Inv s ∧ (nextInput s).turn ≠ .reset ∧ s.isPressed 2 = false ∧ s.epFull 0 = false
      ∧ s.epNonempty 0 = false
      ∧ ∃ t, step s = .next t ∧ t.isPressed 2 = true ∧ t.epFull 0 = true ∧ t.epNonempty 0 = true :=
  ⟨hosting_inv wired_inv _, by decide, by decide, by decide, by decide, _, rfl, by decide, by decide,
    by decide⟩

/-- The clauses about buttons, cleared: a release of button 2. -/
theorem witness_ConditionPressedCleared :
    let s := hosting 0x11000000#32 (eval 0x04#8 0#64 (wired [] []))
    Inv s ∧ (nextInput s).turn ≠ .reset ∧ s.isPressed 2 = true
      ∧ ∃ t, step s = .next t ∧ t.isPressed 2 = false :=
  ⟨hosting_inv pressed_inv _, by decide, by decide, _, rfl, by decide⟩

/-- The clauses about queues, cleared: RECV of the one payload of endpoint 0. -/
theorem witness_ConditionsClearedByRecv :
    let s := hosting 0x06000000#32 (eval 0x04#8 0#64 (wired [] []))
    Inv s ∧ (nextInput s).turn ≠ .reset ∧ s.epFull 0 = true ∧ s.epNonempty 0 = true
      ∧ ∃ t, step s = .next t ∧ t.epFull 0 = false ∧ t.epNonempty 0 = false :=
  ⟨hosting_inv pressed_inv _, by decide, by decide, by decide, _, rfl, by decide, by decide⟩

/-- The clauses about MBOX. -/
theorem witness_ConditionMboxFull :
    (let s := hosting 0x05000000#32 (start 1 true)
     Inv s ∧ s.mboxFull = false ∧ ∃ t, step s = .next t ∧ t.mboxFull = true)
      ∧ (let s := turned (.led .ok) 0#64 (full 1)
         Inv s ∧ s.mboxFull = true ∧ ∃ t, step s = .next t ∧ t.mboxFull = false) :=
  ⟨⟨hosting_inv start_inv _, by decide, _, rfl, by decide⟩, turned_inv full_inv _ _, by decide, _, rfl,
    by decide⟩

/-- CONFIGURED, as CONFIGURE leaves it. -/
def configured : State := { fresh 1 true with
  status := .configured, gamma := some identity, pollInterval := some 50000000#64 }

theorem configured_inv : Inv configured := by
  obtain ⟨i1, i2, i3, i4, i5, i6, i7, i8, i9, i10, i11, i12, i13, i14, i15, i16, i17, i18⟩ :=
    fresh_inv
  exact ⟨i1, i2, i3, i4, i5, i6, i7, i8, i9, i10, i11, i12, i13, fun _ => rfl,
    (fun h => by cases h), (fun h => by cases h), rfl, rfl⟩

/-- The clauses about `running`. -/
theorem witness_ConditionRunning :
    (let s := turned (.init .ok .ok .ok) 0#64 configured
     Inv s ∧ s.isRunning = false ∧ ∃ t, step s = .next t ∧ t.isRunning = true)
      ∧ (let s := turned (.poll .fail) 0#64 (start 1 true)
         Inv s ∧ s.isRunning = true ∧ ∃ t, step s = .next t ∧ t.isRunning = false) :=
  ⟨⟨turned_inv configured_inv _ _, by decide, _, rfl, by decide⟩, turned_inv start_inv _ _, by decide,
    _, rfl, by decide⟩

theorem witness_HostCannotWriteInternals :
    (start 1 false).params.bench = false
      ∧ ∃ t, exec (.setbrt 5#8) (start 1 false) = .next t ∧ t.brt = 5#8 :=
  ⟨rfl, _, rfl, rfl⟩

/-- A turn of each agent. -/
theorem witness_AgentsShareNoState :
    (∃ t, step (turned (.led .ok) 0#64 (full 1)) = .next t ∧ t.mbox = .empty)
      ∧ ∃ t, step (turned (.poll (.ok 0x04#8)) 0#64 (full 1)) = .next t ∧ t.pressed[2] = true :=
  ⟨⟨_, rfl, rfl⟩, _, rfl, rfl⟩

/-- A request pending, and none. -/
theorem witness_LedAndPollCommute :
    ((full 1).status = .running ∧ (full 1).mboxFull = true)
      ∧ ((start 1 true).status = .running ∧ (start 1 true).mboxFull = false) := by
  decide

/-- An endpoint to keep, in a step that is not a reset. -/
theorem witness_RegistryOnlyGrows :
    let s := hosting 0x03000002#32 (wired [] [])
    (∃ t, step s = .next t ∧ t.nextEp = 3) ∧ (nextInput s).turn ≠ .reset
      ∧ s.ep[1]? = some ⟨.release, 2, []⟩ :=
  ⟨⟨_, rfl, rfl⟩, by decide, rfl⟩

/-! ## Witnesses: a fair endless run (60_exceptions.md R226) -/

/-- The turns of the LED agent and of the poll agent alternate. -/
def alternating (n : Nat) : Input :=
  ⟨BitVec.ofNat 64 n, if n % 2 = 0 then .led .ok else .poll (.ok 0x00#8)⟩

/-- The run they give from a state with a request pending. -/
def alternatingRun : Nat → State
  | 0 => full 1
  | n + 1 =>
    let s := takeInput { alternatingRun n with env := [alternating n] }
    if n % 2 = 0 then ledStep .ok s else pollStep (.ok 0x00#8) s

theorem witness_FairRunsMakeProgress :
    FairRun alternatingRun alternating ∧ ledEnabled (alternatingRun 0) := by
  refine ⟨⟨fun n => ?_, fun n _ => ⟨2 * n, by omega, .ok, ?_⟩,
    fun n _ => ⟨2 * n + 1, by omega, .ok 0x00#8, ?_⟩⟩, rfl, by decide⟩
  · have ht : (nextInput (fed alternatingRun alternating n)).turn = (alternating n).turn := rfl
    unfold step
    rw [ht]
    rcases Nat.mod_two_eq_zero_or_one n with h | h <;>
      simp [alternating, alternatingRun, takeTurn, fed, h]
  · simp [alternating]
  · simp [alternating, Nat.add_mod]

end Sys2Proof.Tests
end

section
/-! PROOF. The state after reset (10_state.md R45): what each button holds, and the table. -/

namespace Sys2Proof.Machine

/-! ## The state of a button after reset (R28 to R30) -/

@[simp] theorem reset_pressed (b : Button) : State.reset.pressed[b] = false := by
  revert b; decide

@[simp] theorem reset_t0 (b : Button) : State.reset.t0[b] = none := by
  revert b; decide

@[simp] theorem reset_psub (b : Button) : State.reset.psub[b] = [] := by
  revert b; decide

@[simp] theorem reset_rsub (b : Button) : State.reset.rsub[b] = [] := by
  revert b; decide

/-! ## The table -/

/-- Settles O33: a register of the whole block is a field of `State.reset` at its listed value, and
the four registers of a button are the lemmas above. -/
theorem resetTable : Obligations.ResetTable := by
  unfold Obligations.ResetTable
  exact ⟨rfl, rfl, rfl, rfl, rfl, rfl,
    fun b => ⟨reset_pressed b, reset_t0 b, reset_psub b, reset_rsub b⟩,
    rfl, rfl, rfl, rfl, rfl, rfl⟩

end Sys2Proof.Machine
end

section
/-! PROOF. The transactions of a step (20_memory.md R62) and the LED writes of a run (R74). -/

namespace Sys2Proof.Machine

open Sys2Proof.Safety

/-! ## What an operation leaves alone -/

/-- No operation issues a transaction, changes a parameter, GAMMA or STATUS (60_exceptions.md R218). -/
theorem effect_frame {s t : State} {i : Instr} (h : Effect s i t) :
    t.xfers = s.xfers ∧ t.params = s.params ∧ t.gamma = s.gamma ∧ t.status = s.status := by
  cases h with
  | sample v => simp
  | _ => exact ⟨rfl, rfl, rfl, rfl⟩

/-- ENCB alone writes SNAP, and it keeps the other pins (40_encoder.md R123). -/
theorem effect_keeps_otherPins {s t : State} {i : Instr} (h : Effect s i t)
    (hne : s.params.clkBit ≠ s.params.datBit) :
    t.snap &&& ~~~ pinMask s.params = s.snap &&& ~~~ pinMask s.params := by
  cases h with
  | encb b => rw [complete_snap, shiftOut_spec s hne]; exact imageSnapshot_other ..
  | sample v => simp
  | _ => rfl

/-! ## The five shapes of transaction -/

/-- A write is answered with no byte or fails (20_memory.md R63). -/
theorem fiveShapes_write {p : Params} {frame w : List Byte} {o : XferOutcome}
    (ho : o = .ok [] ∨ o = .fail)
    (hw : w = [p.regCfg, p.dirMask] ∨ w = [p.regPol, p.polVal] ∨ w = [p.regOut, Config.outInit]
      ∨ (frame.length = 128 ∧ w = p.regOut :: frame)) :
    fiveShapes p frame ⟨p.busAddr, w, 0, o⟩ := by
  refine ⟨rfl, ?_, ?_⟩
  · rcases ho with rfl | rfl <;> simp
  · rcases hw with hw | hw | hw | hw <;> simp [hw, Config.outInit]

/-- A read of the button register is answered with one byte or fails (20_memory.md R63). -/
theorem fiveShapes_read {p : Params} {frame : List Byte} {o : XferOutcome}
    (ho : (∃ v, o = .ok [v]) ∨ o = .fail) : fiveShapes p frame ⟨p.busAddr, [p.regIn], 1, o⟩ := by
  rcases ho with ⟨v, rfl⟩ | rfl <;> simp [fiveShapes]

theorem servedAt_of_enabled {s : State} {ans : WriteAns} {r g b : Byte}
    (ht : (nextInput s).turn = .led ans) (hr : s.status = .running) (hm : s.mbox = .full r g b) :
    servedAt s = [s.brt] := by
  simp [servedAt, ht, State.isRunning, State.mboxFull, hr, hm]

/-- From `s` to `t` the transport has seen only transactions with the property `P`. -/
def AddsOnly (P : Xfer → Prop) (s t : State) : Prop :=
  ∃ new, t.xfers = s.xfers ++ new ∧ ∀ x ∈ new, P x

theorem addsOnly_of_eq {P : Xfer → Prop} {s t : State} (h : t.xfers = s.xfers) : AddsOnly P s t :=
  ⟨[], by rw [h, List.append_nil], List.forall_mem_nil P⟩

theorem AddsOnly.snoc {P : Xfer → Prop} {s u t : State} {x : Xfer} (h : AddsOnly P s u)
    (ht : t.xfers = u.xfers ++ [x]) (hx : P x) : AddsOnly P s t := by
  obtain ⟨new, hu, hnew⟩ := h
  refine ⟨new ++ [x], by rw [ht, hu, List.append_assoc], ?_⟩
  exact List.forall_mem_append.mpr ⟨hnew, List.forall_mem_singleton.mpr hx⟩

/-- A transaction of the step from `s`, which leaves `frame` in FRAME: of the five shapes, and of 129
bytes only where LEDSTEP serves a request. -/
def StepXfer (s : State) (frame : List Byte) (x : Xfer) : Prop :=
  fiveShapes s.params frame x ∧ (x.w.length = 129 → servedAt s ≠ [])

/-- What a step adds to the log. -/
theorem move_log {s t : State} (h : Move s (takeInput s) t) :
    AddsOnly (StepXfer s t.frame) s t := by
  have start : AddsOnly (StepXfer s t.frame) s (takeInput s) := addsOnly_of_eq rfl
  have cfg {o} (ho : o = .ok [] ∨ o = .fail) : StepXfer s t.frame
      ⟨s.params.busAddr, [s.params.regCfg, s.params.dirMask], 0, o⟩ :=
    ⟨fiveShapes_write ho (.inl rfl), nofun⟩
  have pol {o} (ho : o = .ok [] ∨ o = .fail) : StepXfer s t.frame
      ⟨s.params.busAddr, [s.params.regPol, s.params.polVal], 0, o⟩ :=
    ⟨fiveShapes_write ho (.inr (.inl rfl)), nofun⟩
  have out {o} (ho : o = .ok [] ∨ o = .fail) : StepXfer s t.frame
      ⟨s.params.busAddr, [s.params.regOut, Config.outInit], 0, o⟩ :=
    ⟨fiveShapes_write ho (.inr (.inr (.inl rfl))), nofun⟩
  cases h with
  | hostOp cw i _ ht hw hd he => exact addsOnly_of_eq (effect_frame he).1
  | ledOk r g b snap f ht hr hm hf | ledFail r g b snap f ht hr hm hf =>
    refine start.snoc rfl ⟨fiveShapes_write (by simp) (.inr (.inr (.inr ⟨hf, rfl⟩))), fun _ => ?_⟩
    simp [servedAt_of_enabled ht hr hm]
  | pollOk v => exact start.snoc rfl ⟨fiveShapes_read (.inl ⟨v, rfl⟩), nofun⟩
  | pollFail => exact start.snoc rfl ⟨fiveShapes_read (.inr rfl), nofun⟩
  | init0 => exact start.snoc rfl (cfg (.inr rfl))
  | init1 => exact (start.snoc (xfer_xfers ..) (cfg (.inl rfl))).snoc rfl (pol (.inr rfl))
  | init2 =>
    exact ((start.snoc (xfer_xfers ..) (cfg (.inl rfl))).snoc (xfer_xfers ..)
      (pol (.inl rfl))).snoc rfl (out (.inr rfl))
  | initDone =>
    exact ((start.snoc (xfer_xfers ..) (cfg (.inl rfl))).snoc (xfer_xfers ..)
      (pol (.inl rfl))).snoc rfl (out (.inl rfl))
  | _ => exact addsOnly_of_eq rfl

/-- Settles O48: the log of `move_log`, read at the step. -/
theorem fiveShapesOfTransaction : Obligations.FiveShapesOfTransaction := by
  intro s t h
  obtain ⟨new, hlog, hnew⟩ := move_log (step_next h)
  exact ⟨new, hlog, fun x hx => (hnew x hx).1⟩

/-! ## What a step leaves alone -/

theorem move_keeps_params {s t : State} (h : Move s (takeInput s) t) : t.params = s.params := by
  cases h with
  | hostOp cw i _ ht hw hd he => exact (effect_frame he).2.1
  | pollOk v => simp
  | _ => rfl

/-- Once CONFIGURE has run, only reset writes GAMMA (20_memory.md R67) and only reset goes back
to RESET (10_state.md R36). -/
theorem move_keeps_gamma {s t : State} (h : Move s (takeInput s) t) (hs : s.status ≠ .reset)
    (hn : (nextInput s).turn ≠ .reset) : t.gamma = s.gamma ∧ t.status ≠ .reset := by
  cases h with
  | hostOp cw i _ ht hw hd he =>
    obtain ⟨-, -, hg, hst⟩ := effect_frame he
    exact ⟨hg, by rw [hst]; exact hs⟩
  | pollOk v => exact ⟨by simp, by simpa using hs⟩
  | configured _ _ _ _ hr => exact absurd hr hs
  | configureRefused _ _ _ _ hr => exact absurd hr hs
  | reset ht => exact absurd ht hn
  | hostIdle | hostIllegal | agentIdle | ledOk => exact ⟨rfl, hs⟩
  | _ => exact ⟨rfl, nofun⟩

/-- The two pins differ and the other pins of SNAP are 0: what 10_state.md R44 (a) asks, and all that
the frames of a run depend on. -/
def CleanPins (s : State) : Prop :=
  s.params.clkBit ≠ s.params.datBit ∧ s.snap &&& ~~~ pinMask s.params = 0#8

theorem cleanPins_of_inv {s : State} (hi : Inv s) : CleanPins s := ⟨inv_clk_ne_dat hi, hi.snapOther⟩

theorem encodeCommand_keeps_otherPins (c : List Byte) (s : State)
    (hne : s.params.clkBit ≠ s.params.datBit) :
    (encodeCommand c s).snap &&& ~~~ pinMask s.params = s.snap &&& ~~~ pinMask s.params :=
  (shiftOuts_spec c { s with frame := [] } hne).2.1

theorem move_keeps_cleanPins {s t : State} (h : Move s (takeInput s) t) (hc : CleanPins s) :
    CleanPins t := by
  obtain ⟨hne, h0⟩ := hc
  have hp := move_keeps_params h
  refine ⟨by rw [hp]; exact hne, ?_⟩
  rw [hp]
  cases h with
  | hostOp cw i _ ht hw hd he => exact (effect_keeps_otherPins he hne).trans h0
  | ledOk r g b snap f ht hr hm hf he | ledFail r g b snap f ht hr hm hf he =>
    have hs := encodeCommand_keeps_otherPins (ledCommand (takeInput s) r g b)
      { takeInput s with mbox := .empty } hne
    rw [he] at hs
    exact hs.trans h0
  | pollOk v => simpa using h0
  | reset => exact BitVec.zero_and
  | _ => exact h0

/-! ## The LED agent's turn -/

/-- A step at which a brightness counts is an enabled LEDSTEP (60_exceptions.md R222). -/
theorem enabled_of_servedAt {s : State} (h : servedAt s ≠ []) :
    s.status = .running ∧ ∃ ans r g b, (nextInput s).turn = .led ans ∧ s.mbox = .full r g b := by
  unfold servedAt at h
  split at h
  · rename_i ans ht
    split at h
    · rename_i he
      obtain ⟨hr, hf⟩ := Bool.and_eq_true_iff.mp he
      cases hm : s.mbox with
      | empty => exact absurd hm ((mboxFull_iff s).mp hf)
      | full r g b => exact ⟨(isRunning_iff s).mp hr, ans, r, g, b, ht, rfl⟩
    · exact absurd rfl h
  · exact absurd rfl h

/-- From a snapshot register whose other pins are 0, a command's frame is the one from 0x00
(40_encoder.md R121). -/
theorem frameOf_of_otherPins {p : Params} {s0 : Byte} (h : s0 &&& ~~~ pinMask p = 0#8)
    (c : List Byte) : frameOf p s0 c = frameOf p 0x00#8 c := by
  unfold frameOf
  congr 1
  funext b
  exact image_congr p (by simpa using h) b

theorem colourFrame_length (p : Params) (g : Option (Vector Byte 256)) (c : Colour) (l : Byte) :
    (colourFrame p g c l).length = 128 := by
  simp [colourFrame, frameOf, build]

/-- The frame LEDSTEP encodes is that of the pending colour at the current brightness
(40_encoder.md R128 to R130). -/
theorem encodeCommand_ledCommand {s : State} (hc : CleanPins s) (r g b : Byte) :
    (encodeCommand (ledCommand s r g b) { s with mbox := .empty }).frame
      = colourFrame s.params s.gamma ⟨r, g, b⟩ s.brt := by
  obtain ⟨hne, h0⟩ := hc
  have hb := encodeCommand_build (channel s.gamma s.brt r) (channel s.gamma s.brt g)
    (channel s.gamma s.brt b) { s with mbox := .empty } hne
  exact (congrArg State.frame hb).trans (frameOf_of_otherPins h0 _)

/-- An enabled LEDSTEP empties MBOX and issues one LED write, whatever the answer. -/
theorem ledTurn_writes {s t : State} {ans : WriteAns} {r g b : Byte}
    (ht : (nextInput s).turn = .led ans) (hr : s.status = .running) (hm : s.mbox = .full r g b)
    (hc : CleanPins s) (h : step s = .next t) :
    t.mbox = .empty ∧ ∃ o, t.xfers = s.xfers
      ++ [⟨s.params.busAddr, s.params.regOut :: colourFrame s.params s.gamma ⟨r, g, b⟩ s.brt, 0, o⟩] := by
  have hl : step s = .next (ledStep ans (takeInput s)) := by unfold step; rw [ht]; rfl
  obtain ⟨w, hw, -, hf, hs⟩ := ledStep_enabled (s := takeInput s) hr hm ans
  have hframe : w.frame = colourFrame s.params s.gamma ⟨r, g, b⟩ s.brt := by
    rw [hw]; exact encodeCommand_ledCommand (s := takeInput s) hc r g b
  rw [hl, hs, hframe] at h
  injection h with h
  subst h
  generalize w.frame = f, w.snap = snap at hf
  subst hf
  cases ans <;> exact ⟨rfl, _, rfl⟩

/-! ## The mailbox -/

theorem accepted_of_not_host {s : State} (t : State) (h : (nextInput s).turn ≠ .host) :
    accepted s t = [] := by
  unfold accepted
  split
  · rename_i ht _; exact absurd ht h
  · rfl

theorem accepted_of_idle {s : State} (t : State) (hw : s.program[s.pi]? = none) :
    accepted s t = [] := by
  simp [accepted, presentedWord, hw]

theorem accepted_of_illegal {s : State} (t : State) {cw : Word} {e : DecodeError}
    (hw : s.program[s.pi]? = some cw) (hd : decode s.params.bench cw = .error e) :
    accepted s t = [] := by
  unfold accepted presentedWord
  rw [hw]
  split <;> simp_all

/-- The colour an operation that led from `s` to `t` has requested, if it completed with `ok`. -/
def completedRequest (i : Instr) (s t : State) : List Colour :=
  if t.results = s.results ++ [.ok] then (requestOf i).toList else []

theorem accepted_of_op {s : State} (t : State) {cw : Word} {i : Instr}
    (ht : (nextInput s).turn = .host) (hw : s.program[s.pi]? = some cw)
    (hd : decode s.params.bench cw = .ok i) : accepted s t = completedRequest i s t := by
  simp [accepted, presentedWord, ht, hw, hd, completedRequest]

/-- An operation puts the colour it requests behind the pending one, which it leaves alone. -/
theorem effect_queues {s t : State} {i : Instr} (h : Effect s i t) :
    pending s ++ completedRequest i s t = pending t := by
  cases h with
  | holds i => simp [completedRequest]
  | refused i e => simp [completedRequest, pending]
  | setcolor r g b hr hm => simp [completedRequest, pending, requestOf, hm]
  | halt hr hm => simp [completedRequest, pending, requestOf, hm]
  | setbrt | subp | subr | recv | encb | sample => simp [completedRequest, requestOf, pending]

/-- A step that serves nothing only puts what it accepts into the mailbox. -/
theorem move_queues {s t : State} (h : Move s (takeInput s) t) (hn : (nextInput s).turn ≠ .reset)
    (hs : servedAt s = []) : pending s ++ accepted s t = pending t := by
  have idle : accepted s t = [] → t.mbox = s.mbox → pending s ++ accepted s t = pending t := by
    intro ha hm; simp [ha, pending, hm]
  cases h with
  | hostIdle ht hw => exact idle (accepted_of_idle _ hw) rfl
  | hostIllegal cw e ht hw hd => exact idle (accepted_of_illegal _ hw hd) rfl
  | hostOp cw i _ ht hw hd he => rw [accepted_of_op _ ht hw hd]; exact effect_queues (s := takeInput s) he
  | ledOk r g b snap f ht hr hm | ledFail r g b snap f ht hr hm =>
    rw [servedAt_of_enabled ht hr hm] at hs; cases hs
  | reset ht => exact absurd ht hn
  | agentIdle ht =>
    refine idle (accepted_of_not_host _ ?_) rfl
    rcases ht with ⟨a, ht⟩ | ⟨a, ht⟩ <;> simp [ht]
  | pollOk v ht => exact idle (accepted_of_not_host _ (by simp [ht])) (by simp)
  | pollFail ht | configured _ _ _ ht | configureRefused _ _ _ ht | init0 _ _ ht | init1 _ ht
  | init2 ht | initDone ht => exact idle (accepted_of_not_host _ (by simp [ht])) rfl

/-! ## The requests of a run -/

theorem ledWrites_of_append {s t : State} {new : List Xfer} (h : t.xfers = s.xfers ++ new) :
    ledWrites s t = (new.filter fun x => decide (x.w.length = 129)).map fun x => x.w.tail := by
  simp [ledWrites, h]

/-- Between `s` and `t` the colours `cs` were accepted and the colours `served` were written, each at
its brightness in `ls`: the two clauses of 20_memory.md R74, in a form that adds up along a run. -/
structure Relay (s t : State) (cs : List Colour) (ls : List Byte) (served : List Colour) : Prop where
  queue : pending s ++ cs = served ++ pending t
  count : served.length = ls.length
  grows : s.xfers <+: t.xfers
  writes : ledWrites s t = List.zipWith (colourFrame s.params t.gamma) served ls

theorem relay_refl (s : State) : Relay s s [] [] [] :=
  ⟨by simp, rfl, List.prefix_rfl, by simp [ledWrites]⟩

/-- Relays add up, the table being the same wherever the first part has a write. -/
theorem Relay.trans {s t u : State} {cs cs' sv sv' : List Colour} {ls ls' : List Byte}
    (h : Relay s t cs ls sv) (h' : Relay t u cs' ls' sv') (hp : t.params = s.params)
    (hg : ls ≠ [] → u.gamma = t.gamma) : Relay s u (cs ++ cs') (ls ++ ls') (sv ++ sv') := by
  obtain ⟨queue, count, ⟨a, ha⟩, writes⟩ := h
  obtain ⟨queue', count', ⟨b, hb⟩, writes'⟩ := h'
  have hlog : u.xfers = s.xfers ++ (a ++ b) := by rw [← hb, ← ha, List.append_assoc]
  refine ⟨?_, by simp [count, count'], ⟨_, hlog.symm⟩, ?_⟩
  · rw [← List.append_assoc, queue, List.append_assoc, queue', List.append_assoc]
  · have hw : List.zipWith (colourFrame s.params t.gamma) sv ls
        = List.zipWith (colourFrame s.params u.gamma) sv ls := by
      by_cases he : ls = []
      · simp [he]
      · rw [hg he]
    rw [ledWrites_of_append hlog, List.filter_append, List.map_append,
      ← ledWrites_of_append ha.symm, ← ledWrites_of_append hb.symm, writes, writes', hp, hw,
      List.zipWith_append count]

/-- One step relays: an enabled LEDSTEP writes the pending colour, every other step writes none. -/
theorem step_relays {s t : State} (hc : CleanPins s) (h : step s = .next t)
    (hn : (nextInput s).turn ≠ .reset) : ∃ served, Relay s t (accepted s t) (servedAt s) served := by
  have hmove := step_next h
  by_cases hs : servedAt s = []
  · obtain ⟨new, hlog, hnew⟩ := move_log hmove
    have hnone : ∀ x ∈ new, ¬ (decide (x.w.length = 129)) = true := fun x hx hlen =>
      (hnew x hx).2 (of_decide_eq_true hlen) hs
    refine ⟨[], move_queues hmove hn hs, by rw [hs]; rfl, ⟨_, hlog.symm⟩, ?_⟩
    rw [ledWrites_of_append hlog, List.filter_eq_nil_iff.mpr hnone]
    rfl
  · obtain ⟨hr, ans, r, g, b, ht, hm⟩ := enabled_of_servedAt hs
    obtain ⟨hempty, o, hlog⟩ := ledTurn_writes ht hr hm hc h
    have hg := (move_keeps_gamma hmove (by simp [hr]) hn).1
    rw [servedAt_of_enabled ht hr hm, accepted_of_not_host t (by simp [ht])]
    refine ⟨[⟨r, g, b⟩], by simp [pending, hm, hempty], rfl, ⟨_, hlog.symm⟩, ?_⟩
    rw [ledWrites_of_append hlog, hg]
    simp [colourFrame_length]

theorem run_keeps_gamma {s t : State} {cs : List Colour} {ls : List Byte} (h : Run s cs ls t)
    (hs : s.status ≠ .reset) : t.gamma = s.gamma := by
  induction h with
  | nil s => rfl
  | cons s t u cs ls hstep hn rest ih =>
    obtain ⟨hg, ht⟩ := move_keeps_gamma (step_next hstep) hs hn
    rw [ih ht, hg]

/-- Every run without reset relays, by induction on the run. -/
theorem run_relays {s t : State} {cs : List Colour} {ls : List Byte} (h : Run s cs ls t)
    (hc : CleanPins s) : ∃ served, Relay s t cs ls served := by
  induction h with
  | nil s => exact ⟨[], relay_refl s⟩
  | cons s t u cs ls hstep hn rest ih =>
    have hmove := step_next hstep
    obtain ⟨sv, hfirst⟩ := step_relays hc hstep hn
    obtain ⟨sv', hrest⟩ := ih (move_keeps_cleanPins hmove hc)
    refine ⟨sv ++ sv', hfirst.trans hrest (move_keeps_params hmove) fun hls => ?_⟩
    have hr : s.status ≠ .reset := by simp [(enabled_of_servedAt hls).1]
    exact run_keeps_gamma rest (move_keeps_gamma hmove hr hn).2

/-- A colour request that finds the mailbox full holds (20_memory.md R81). -/
theorem request_holds {s : State} (hr : s.status = .running) (hm : s.mbox ≠ .empty) (r g b : Byte) :
    whenRunning s (deposit r g b s) = .next s := by
  rw [whenRunning_of_running hr]
  cases h : s.mbox with
  | empty => exact absurd h hm
  | full => exact deposit_of_full h r g b

/-- Settles O50: the relay of the run gives the first clause, the hold of a deposit the second. -/
theorem ledWritesAreTheRequestsInOrder : Obligations.LedWritesAreTheRequestsInOrder := by
  refine ⟨fun s t cs ls hi hrun => ?_, fun s r g b hr hm => ?_⟩
  · obtain ⟨served, queue, count, -, writes⟩ := run_relays hrun (cleanPins_of_inv hi)
    exact ⟨served, queue, count, writes⟩
  · exact ⟨request_holds hr hm r g b, request_holds hr hm 0#8 0#8 0#8⟩

end Sys2Proof.Machine
end

section
/-! PROOF. Illegal command words (30_encoding.md R100): the rows of the operation map read on the
fields of a word, and the host's turn on a word that no row matches. -/

namespace Sys2Proof

open Sys2Proof.Safety

/-! ## The map read byte by byte (R97) -/

/-- A row of the map in bytes: OP is matched whole, the bits of A, B and C under the masks are 0. -/
def byteRow (op maskA maskB maskC : Byte) (button bench : Bool) : Row :=
  ⟨op ++ 0#8 ++ 0#8 ++ 0#8, 0xFF#8 ++ maskA ++ maskB ++ maskC, button, bench⟩

theorem rows_eq_byteRows : rows =
    [byteRow 0x01#8 0x00#8 0x00#8 0x00#8 false false,
     byteRow 0x02#8 0xFF#8 0xFF#8 0x00#8 false false,
     byteRow 0x03#8 0xFF#8 0xFF#8 0xF8#8 true false,
     byteRow 0x04#8 0xFF#8 0xFF#8 0xF8#8 true false,
     byteRow 0x05#8 0xFF#8 0xFF#8 0xFF#8 false false,
     byteRow 0x06#8 0xFF#8 0x00#8 0x00#8 false false,
     byteRow 0x10#8 0xFF#8 0xFF#8 0x00#8 false true,
     byteRow 0x11#8 0xFF#8 0xFF#8 0x00#8 false true] := by
  decide

theorem and_ones_byte (x : Byte) : x &&& 0xFF#8 = x := BitVec.and_allOnes

theorem byteRow_spells_iff (bench : Bool) (cw : Word) (op maskA maskB maskC : Byte)
    (button needsBench : Bool) :
    (byteRow op maskA maskB maskC button needsBench).spells bench cw = true
      ↔ (fieldOp cw = op ∧ fieldA cw &&& maskA = 0#8 ∧ fieldB cw &&& maskB = 0#8
          ∧ fieldC cw &&& maskC = 0#8)
        ∧ (button = true → fieldN cw ≤ 4#3) ∧ (needsBench = true → bench = true) := by
  simp only [Row.spells, byteRow, masked_iff, and_ones_byte, fieldN]
  cases button <;> cases needsBench <;> simp [and_assoc]

/-- Legality on the fields of the word, one disjunct per row. -/
theorem legalWord_iff (bench : Bool) (cw : Word) : legalWord bench cw = true ↔
    fieldOp cw = 0x01#8
    ∨ (fieldOp cw = 0x02#8 ∧ fieldA cw = 0#8 ∧ fieldB cw = 0#8)
    ∨ (fieldOp cw = 0x03#8 ∧ (fieldA cw = 0#8 ∧ fieldB cw = 0#8 ∧ fieldCHi cw = 0#5)
        ∧ fieldN cw ≤ 4#3)
    ∨ (fieldOp cw = 0x04#8 ∧ (fieldA cw = 0#8 ∧ fieldB cw = 0#8 ∧ fieldCHi cw = 0#5)
        ∧ fieldN cw ≤ 4#3)
    ∨ (fieldOp cw = 0x05#8 ∧ fieldA cw = 0#8 ∧ fieldB cw = 0#8 ∧ fieldC cw = 0#8)
    ∨ (fieldOp cw = 0x06#8 ∧ fieldA cw = 0#8)
    ∨ (fieldOp cw = 0x10#8 ∧ (fieldA cw = 0#8 ∧ fieldB cw = 0#8) ∧ bench = true)
    ∨ (fieldOp cw = 0x11#8 ∧ (fieldA cw = 0#8 ∧ fieldB cw = 0#8) ∧ bench = true) := by
  simp [legalWord, rows_eq_byteRows, byteRow_spells_iff, and_ones_byte, masked_button_iff,
    and_assoc]

/-! ## What each form of row decodes (R109) -/

theorem decodeC_ok_iff (cw : Word) (f : Byte → Instr) :
    (∃ i, decodeC cw f = .ok i) ↔ fieldA cw = 0#8 ∧ fieldB cw = 0#8 := by
  unfold decodeC
  split <;> simp [*]

theorem decodeN_ok_iff (cw : Word) (f : BitVec 3 → Instr) :
    (∃ i, decodeN cw f = .ok i)
      ↔ (fieldA cw = 0#8 ∧ fieldB cw = 0#8 ∧ fieldCHi cw = 0#5) ∧ fieldN cw ≤ 4#3 := by
  unfold decodeN
  split
  · split <;> simp [*]
  · simp [*]

theorem decodeHalt_ok_iff (cw : Word) :
    (∃ i, decodeHalt cw = .ok i) ↔ fieldA cw = 0#8 ∧ fieldB cw = 0#8 ∧ fieldC cw = 0#8 := by
  unfold decodeHalt
  split <;> simp [*]

theorem decodeE_ok_iff (cw : Word) : (∃ i, decodeE cw = .ok i) ↔ fieldA cw = 0#8 := by
  unfold decodeE
  split <;> simp [*]

theorem decodeBench_ok_iff (bench : Bool) (cw : Word) (f : Byte → Instr) :
    (∃ i, decodeBench bench cw f = .ok i)
      ↔ (fieldA cw = 0#8 ∧ fieldB cw = 0#8) ∧ bench = true := by
  cases bench
  · simp [decodeBench]
  · simp [decodeBench, decodeC_ok_iff]

/-- The decoder accepts exactly the legal words: OP selects at most one row, and under that row both
sides ask the same of the other fields. -/
theorem decode_ok_iff_legalWord (bench : Bool) (cw : Word) :
    (∃ i, decode bench cw = .ok i) ↔ legalWord bench cw = true := by
  rw [legalWord_iff]
  unfold decode
  split_ifs with setcolor setbrt subp subr halt recv encb sample
  · simp [setcolor]
  · simp [setbrt, decodeC_ok_iff]
  · simp [subp, decodeN_ok_iff]
  · simp [subr, decodeN_ok_iff]
  · simp [halt, decodeHalt_ok_iff]
  · simp [recv, decodeE_ok_iff]
  · simp [encb, decodeBench_ok_iff]
  · simp [sample, decodeBench_ok_iff]
  · simp [*]

theorem decode_error_of_not_legal {bench : Bool} {cw : Word} (h : legalWord bench cw = false) :
    ∃ e, decode bench cw = .error e := by
  cases hd : decode bench cw with
  | error e => exact ⟨e, rfl⟩
  | ok i => simp [(decode_ok_iff_legalWord bench cw).mp ⟨i, hd⟩] at h

theorem spells_of_not_bench {r : Row} (h : r.bench = false) (bench bench' : Bool) (cw : Word) :
    r.spells bench cw = r.spells bench' cw := by
  simp [Row.spells, h]

/-- RECV has no value condition (R98): its word is legal for every endpoint id. -/
theorem legalWord_recv (bench : Bool) (e : EpId) : legalWord bench (encode (.recv e)) = true := by
  obtain ⟨hmem, hbench, hspells⟩ := Laws.EncodeSpells.recv e rfl
  exact List.any_eq_true.mpr ⟨_, hmem, (spells_of_not_bench hbench bench true _).trans hspells⟩

end Sys2Proof

namespace Sys2Proof.Machine

open Sys2Proof.Safety

/-! ## The host's turn on an illegal word -/

theorem hostTurn_of_decode_error {s : State} {cw : Word} {e : DecodeError}
    (hw : s.program[s.pi]? = some cw) (hd : decode s.params.bench cw = .error e) :
    hostTurn s = .next (illegal cw s) := by
  simp [hostTurn, presentedWord, hw, hd]

theorem step_of_host {s : State} (ht : (nextInput s).turn = .host) :
    step s = hostTurn (takeInput s) := by
  simp [step, ht, takeTurn]

/-- Settles O4: decoder and map agree field by field, an illegal word is a decoding error of the
host's turn, and the RECV words are those of `legalWord_recv`. -/
theorem illegalWordChangesNothing : Obligations.IllegalWordChangesNothing := by
  refine ⟨decode_ok_iff_legalWord, fun s cw ht hw hl => ?_, legalWord_recv⟩
  obtain ⟨e, hd⟩ := decode_error_of_not_legal hl
  rw [step_of_host ht]
  exact hostTurn_of_decode_error (s := takeInput s) hw hd

end Sys2Proof.Machine
end

section
/-! PROOF. The colour requests (20_memory.md R81, 40_encoder.md R132 to R134), the other pins of the
encoder's snapshots (R123), and LEDSTEP in closed form (R130). -/

namespace Sys2Proof.Machine

open Sys2Proof.Safety

/-! ## The colour requests -/

/-- What a request of a colour does, whichever operation makes it (20_memory.md R81). -/
theorem request_outcomes (r g b : Byte) (s : State) :
    (s.status ≠ .running → whenRunning s (deposit r g b s)
      = .next (complete s (.err (.notRunning s.status s.cause))))
    ∧ (s.status = .running → s.mbox ≠ .empty → whenRunning s (deposit r g b s) = .next s)
    ∧ (s.status = .running → s.mbox = .empty → whenRunning s (deposit r g b s)
      = .next (complete { s with mbox := .full r g b } .ok)) :=
  ⟨fun hr => whenRunning_of_not hr _,
    fun hr hm => request_holds hr hm r g b,
    fun hr hm => (whenRunning_of_running hr _).trans (deposit_of_empty hm r g b)⟩

/-- Settles O6: SETCOLOR is the request of its operands. -/
theorem setcolorDeposits : Obligations.SetcolorDeposits :=
  request_outcomes

/-- Settles O7: SETBRT passes the check of RUNNING or is refused by it. -/
theorem setbrtWritesBrightness : Obligations.SetbrtWritesBrightness :=
  fun _ _ => ⟨fun hr => whenRunning_of_not hr _, fun hr => whenRunning_of_running hr _⟩

/-! ## The colour path (R127, R128) -/

/-- The index keeps its eight bits: the clamp leaves no more (R127). -/
theorem scaleIndex_toNat (raw t : Byte) : (scaleIndex raw t).toNat = scaled raw t := by
  have hle : scaled raw t ≤ 255 := Nat.min_le_left ..
  exact Nat.mod_eq_of_lt (Nat.lt_succ_of_le hle)

theorem scaled_zero (t : Byte) : scaled 0#8 t = 0 := by
  simp [scaled]

/-- A channel is the table's entry at the scaled index (R128). -/
theorem channel_of_getElem? {table : Vector Byte 256} {raw t x : Byte}
    (h : table[scaled raw t]? = some x) : channel (some table) t raw = x := by
  rw [← scaleIndex_toNat] at h
  exact (Vector.getElem?_eq_some_iff.mp h).2

/-- Black is gamma(0) at every brightness (R134). -/
theorem channel_zero (table : Vector Byte 256) (t : Byte) : channel (some table) t 0#8 = table[0] :=
  channel_of_getElem? (by rw [scaled_zero]; rfl)

theorem ledCommand_black {s : State} {table : Vector Byte 256} (hg : s.gamma = some table) :
    ledCommand s 0#8 0#8 0#8 = build table[0] table[0] table[0] := by
  simp only [ledCommand, hg, channel_zero]

/-- Settles O8: HALT is the request of black, whose three channels are gamma(0). -/
theorem haltRequestsBlack : Obligations.HaltRequestsBlack :=
  ⟨fun _ _ hg => ledCommand_black hg, request_outcomes 0#8 0#8 0#8⟩

/-! ## The other pins of a snapshot (R123) -/

theorem image_keeps_otherPins (p : Params) (s0 b : Byte) :
    ∀ x ∈ image p s0 b, x &&& ~~~ pinMask p = s0 &&& ~~~ pinMask p := by
  intro x hx
  obtain ⟨j, -, rfl⟩ := List.mem_map.mp hx
  exact imageSnapshot_other ..

theorem frameOf_keeps_otherPins (p : Params) (s0 : Byte) (c : List Byte) :
    ∀ x ∈ frameOf p s0 c, x &&& ~~~ pinMask p = s0 &&& ~~~ pinMask p := by
  intro x hx
  obtain ⟨b, -, hb⟩ := List.mem_flatMap.mp hx
  exact image_keeps_otherPins p s0 b x hb

/-- FRAME after a command holds the command's snapshots and no older one (R130). -/
theorem encodeCommand_frame (c : List Byte) (s : State) (hne : s.params.clkBit ≠ s.params.datBit) :
    (encodeCommand c s).frame = frameOf s.params s.snap c :=
  (shiftOuts_spec c { s with frame := [] } hne).1

theorem exec_encb {s : State} (hb : s.params.bench = true) (hr : s.status = .running) (b : Byte) :
    exec (.encb b) s = .next (complete (shiftOut s b) .ok) :=
  (whenBench_of_bench hb ..).trans (whenRunning_of_running hr _)

/-- Every snapshot in FRAME has its other pins 0, the clause `frameOther` of the invariant. -/
def CleanFrame (s : State) : Prop := ∀ x ∈ s.frame, x &&& ~~~ pinMask s.params = 0#8

theorem effect_keeps_cleanFrame {s t : State} {i : Instr} (h : Effect s i t) (hc : CleanPins s)
    (hf : CleanFrame s) : CleanFrame t := by
  obtain ⟨hne, h0⟩ := hc
  cases h with
  | encb b =>
    rw [shiftOut_spec s hne]
    exact List.forall_mem_append.mpr ⟨hf, image_other s.params s.snap b h0⟩
  | sample v => simpa [CleanFrame] using hf
  | _ => exact hf

/-- ENCB appends to FRAME, LEDSTEP fills it anew, reset empties it; no other step writes it. -/
theorem move_keeps_cleanFrame {s t : State} (h : Move s (takeInput s) t) (hc : CleanPins s)
    (hf : CleanFrame s) : CleanFrame t := by
  cases h with
  | hostOp cw i _ ht hw hd he => exact effect_keeps_cleanFrame he hc hf
  | ledOk r g b snap f ht hr hm hlen he | ledFail r g b snap f ht hr hm hlen he =>
    have hframe : f = frameOf s.params s.snap (ledCommand (takeInput s) r g b) :=
      (congrArg State.frame he).symm.trans
        (encodeCommand_frame _ { takeInput s with mbox := .empty } hc.1)
    subst hframe
    exact fun x hx => (frameOf_keeps_otherPins _ _ _ x hx).trans hc.2
  | pollOk v => simpa [CleanFrame] using hf
  | reset => exact List.forall_mem_nil _
  | _ => exact hf

/-- Settles O10: what ENCB appends is an image, and a step keeps the other pins of FRAME at 0. -/
theorem snapshotsKeepOtherPins : Obligations.SnapshotsKeepOtherPins := by
  refine ⟨fun b s hne hb hr => ?_, fun s t hi h => ?_⟩
  · refine ⟨_, image s.params s.snap b, exec_encb hb hr b, ?_, image_length .., ?_⟩
    · rw [shiftOut_spec s hne]; rfl
    · exact image_keeps_otherPins s.params s.snap b
  · exact move_keeps_cleanFrame (step_next h) (cleanPins_of_inv hi) hi.frameOther

/-! ## LEDSTEP (R130) -/

@[simp] theorem frameOf_length (p : Params) (s0 : Byte) (c : List Byte) :
    (frameOf p s0 c).length = 16 * c.length := by
  simp [frameOf, Nat.mul_comm]

theorem step_of_led {s : State} {ans : WriteAns} (ht : (nextInput s).turn = .led ans) :
    step s = .next (ledStep ans (takeInput s)) := by
  simp [step, ht, takeTurn]

/-- A request served: MBOX emptied, the command of its colour in FRAME, SNAP with the clock high and
the data low. -/
def servedState (s : State) (r g b : Byte) : State :=
  { s with
    mbox := .empty, frame := frameOf s.params s.snap (ledCommand s r g b)
    snap := (s.snap &&& ~~~ pinMask s.params) ||| bitMask s.params.clkBit }

/-- LEDSTEP serves the pending request, then writes FRAME in one transaction. -/
theorem ledStep_serves {s : State} {r g b : Byte} (hne : s.params.clkBit ≠ s.params.datBit)
    (hr : s.status = .running) (hm : s.mbox = .full r g b) (ans : WriteAns) :
    ledStep ans s = memWrite s.params.regOut (servedState s r g b).frame ans
      (faultEntry (.transport .write)) id (servedState s r g b) := by
  obtain ⟨t, ht, -, -, hstep⟩ := ledStep_enabled hr hm ans
  have hserved : t = servedState s r g b :=
    ht.trans (encodeCommand_build _ _ _ { s with mbox := .empty } hne)
  rw [hstep, hserved]

/-- The command of a colour, its channels read from the table (R128, R129). -/
theorem ledCommand_of_getElem? {s : State} {table : Vector Byte 256} {r g b rf gf bf : Byte}
    (hg : s.gamma = some table) (hrf : table[scaled r s.brt]? = some rf)
    (hgf : table[scaled g s.brt]? = some gf) (hbf : table[scaled b s.brt]? = some bf) :
    ledCommand s r g b = build rf gf bf := by
  simp only [ledCommand, hg, channel_of_getElem? hrf, channel_of_getElem? hgf,
    channel_of_getElem? hbf]

theorem takeInput_sameBlock (s : State) : sameBlock s (takeInput s) := by
  simp [sameBlock]

/-- Settles O15: LEDSTEP enabled is `ledStep_serves`, read for each answer of the transport; not
enabled, its turn takes the input and nothing else. -/
theorem ledStepServesOneRequest : Obligations.LedStepServesOneRequest := by
  refine ⟨fun s ans r g b rf gf bf table hne ht hr hm hg hrf hgf hbf => ?_,
    fun s t ans ht hdis h => ?_⟩
  · refine ⟨_, _, step_of_led ht, rfl, by simp, ?_⟩
    rw [ledStep_serves (s := takeInput s) hne hr hm, servedState,
      ledCommand_of_getElem? (s := takeInput s) hg hrf hgf hbf]
    cases ans with
    | ok => rw [← hr]; rfl
    | fail => rfl
  · have hoff : s.status ≠ .running ∨ s.mbox = .empty := by
      rwa [mboxFull_iff, not_and_or, not_not] at hdis
    rw [step_of_led ht, ledStep_disabled (s := takeInput s) hoff] at h
    cases h
    exact ⟨takeInput_sameBlock s, rfl, rfl, rfl⟩

end Sys2Proof.Machine
end

section
/-! PROOF. The operations of unit DET (41_detector.md R164, R171 to R173) and POLLSTEP (R163): one
lemma for the two subscriptions, one per way RECV ends, and one poll cycle for both evaluations. -/

namespace Sys2Proof.Machine

open Sys2Proof.Safety

/-! ## Command words as the rows of the map write them (R97) -/

theorem encode_subp (n : BitVec 3) : encode (.subp n) = 0x03000000#32 ||| n.setWidth 32 := by
  revert n
  decide

theorem encode_subr (n : BitVec 3) : encode (.subr n) = 0x04000000#32 ||| n.setWidth 32 := by
  revert n
  decide

theorem encode_recv (e : EpId) : encode (.recv e) = 0x0600#16 ++ e := rfl

theorem encode_sample (v : Byte) : encode (.sample v) = 0x110000#24 ++ v := rfl

/-! ## Subscriptions (R171, R172) -/

/-- An id that the registry can still give out keeps its value on the result port (R101). -/
theorem handleOf_toNat {id : Nat} (h : id < 65536) : (handleOf id).toNat = id :=
  Nat.mod_eq_of_lt h

theorem newEndpoint_getElem?_nextEp {s : State} (h : s.ep.length = s.nextEp) (k : Kind)
    (b : Button) : (newEndpoint k b s).ep[s.nextEp]? = some ⟨k, b, []⟩ := by
  rw [newEndpoint_ep, ← h, List.getElem?_concat_length]

/-- What a subscription to a legal button does, whichever operation makes it. -/
theorem subscribe_outcomes (k : Kind) (b : Button) (append : State → State) (s : State) :
    (s.status ≠ .running → subscribe k b append s
      = .next (complete s (.err (.notRunning s.status s.cause))))
    ∧ (s.status = .running → s.nextEp = 65536 → subscribe k b append s
      = .next (complete s (.err .registryFull)))
    ∧ (s.status = .running → s.nextEp < 65536 → subscribe k b append s
      = .next (complete (append (newEndpoint k b s)) (.okEp (handleOf s.nextEp)))) :=
  ⟨fun hr => whenRunning_of_not hr _,
    fun hr hfull => (whenRunning_of_running hr _).trans (if_pos hfull),
    fun hr hfree => (whenRunning_of_running hr _).trans (if_neg hfree.ne)⟩

theorem buttonOf_of_four_lt {n : BitVec 3} (h : 4 < n.toNat) : buttonOf n = none :=
  buttonOf_of_gt n (Nat.not_le.mpr h)

theorem exec_subp_of_illegal {n : BitVec 3} (h : 4 < n.toNat) (s : State) :
    exec (.subp n) s = .next (illegal (0x03000000#32 ||| n.setWidth 32) s) := by
  simp only [exec, execSubp, buttonOf_of_four_lt h, encode_subp]

theorem exec_subr_of_illegal {n : BitVec 3} (h : 4 < n.toNat) (s : State) :
    exec (.subr n) s = .next (illegal (0x04000000#32 ||| n.setWidth 32) s) := by
  simp only [exec, execSubr, buttonOf_of_four_lt h, encode_subr]

theorem exec_subp_button (b : Button) (s : State) :
    exec (.subp (BitVec.ofNat 3 b)) s
      = subscribe .press b
          (fun t => { t with psub := t.psub.set b (t.psub[b] ++ [s.nextEp]) }) s := by
  simp only [exec, execSubp, buttonOf_ofNat]

theorem exec_subr_button (b : Button) (s : State) :
    exec (.subr (BitVec.ofNat 3 b)) s
      = subscribe .release b
          (fun t => { t with rsub := t.rsub.set b (t.rsub[b] ++ [s.nextEp]) }) s := by
  simp only [exec, execSubr, buttonOf_ofNat]

/-- Settles O19: SUBP of a legal button is the subscription of a PRESS endpoint to PSUB. -/
theorem subpCreatesPressEndpoint : Obligations.SubpCreatesPressEndpoint := by
  refine ⟨fun n s h => exec_subp_of_illegal h s, fun b s => ?_⟩
  rw [exec_subp_button]
  obtain ⟨hoff, hfull, hfree⟩ := subscribe_outcomes .press b _ s
  exact ⟨hoff, hfull, fun hr hn hlen =>
    ⟨_, _, hfree hr hn, handleOf_toNat hn, newEndpoint_getElem?_nextEp hlen .press b, rfl⟩⟩

/-- Settles O20: SUBR of a legal button is the subscription of a RELEASE endpoint to RSUB. -/
theorem subrCreatesReleaseEndpoint : Obligations.SubrCreatesReleaseEndpoint := by
  refine ⟨fun n s h => exec_subr_of_illegal h s, fun b s => ?_⟩
  rw [exec_subr_button]
  obtain ⟨hoff, hfull, hfree⟩ := subscribe_outcomes .release b _ s
  exact ⟨hoff, hfull, fun hr hn hlen =>
    ⟨_, _, hfree hr hn, handleOf_toNat hn, newEndpoint_getElem?_nextEp hlen .release b, rfl⟩⟩

/-! ## RECV (R173) -/

theorem exec_recv_of_unknown {s : State} {e : EpId} (hr : s.status = .running)
    (he : s.nextEp ≤ e.toNat) : exec (.recv e) s = .next (illegal (0x0600#16 ++ e) s) :=
  (whenRunning_of_running hr _).trans (if_pos he)

theorem exec_recv_of_empty {s : State} {e : EpId} {x : Endpoint} (hr : s.status = .running)
    (he : e.toNat < s.nextEp) (hx : s.ep[e.toNat]? = some x) (hq : x.q = []) :
    exec (.recv e) s = .next s := by
  simp only [exec, execRecv, whenRunning_of_running hr, epIndex, if_neg he.not_ge, hx, hq, hold]

/-- RECV takes the first payload of the queue; what it answers depends on the endpoint's kind. -/
theorem exec_recv_of_cons {s : State} {e : EpId} {x : Endpoint} {p : Payload} {rest : List Payload}
    (hr : s.status = .running) (he : e.toNat < s.nextEp) (hx : s.ep[e.toNat]? = some x)
    (hq : x.q = p :: rest) :
    exec (.recv e) s
      = answerPayload e x.kind p { s with ep := s.ep.set e.toNat { x with q := rest } } := by
  simp only [exec, execRecv, whenRunning_of_running hr, epIndex, if_neg he.not_ge, hx, hq]

/-- Settles O21, one lemma per outcome of RECV. -/
theorem recvTakesTheOldest : Obligations.RecvTakesTheOldest := by
  refine fun e s => ⟨fun hr => whenRunning_of_not hr _, fun hr he => exec_recv_of_unknown hr he,
    fun x hr he hx hq => exec_recv_of_empty hr he hx hq,
    fun x p rest hr he hx hq hk => ?press, fun x d rest hr he hx hq hk => ?release⟩
  case press => rw [exec_recv_of_cons hr he hx hq, hk]; rfl
  case release => rw [exec_recv_of_cons hr he hx hq, hk]; rfl

/-! ## One poll cycle (R163, R164) -/

/-- The evaluation of a sample is one poll cycle (R165, R166). -/
theorem eval_cycle {s : State} (hi : Inv s) (v : Byte) (now : Time) :
    cycle v now s (eval v now s) := by
  obtain ⟨hpressed, ht0, hep, -⟩ := eval_spec v now (wired_of_inv hi)
  exact ⟨eval_frame v now s, hpressed, ht0, hep⟩

theorem exec_sample {s : State} (hb : s.params.bench = true) (hr : s.status = .running) (v : Byte) :
    exec (.sample v) s = .next (complete (eval v s.now s) .ok) :=
  (whenBench_of_bench hb ..).trans (whenRunning_of_running hr _)

theorem complete_eval (v : Byte) (now : Time) (s : State) (r : Result) :
    complete (eval v now s) r
      = { eval v now s with results := s.results ++ [r], pi := s.pi + 1 } := by
  rw [complete, eval_keeps_results, eval_keeps_pi]

/-- Settles O22: BENCH is checked before STATUS, and what passes both is the evaluation of the
operand. -/
theorem sampleIsOnePollCycle : Obligations.SampleIsOnePollCycle := by
  refine ⟨fun v s hb => whenBench_of_not hb _ _,
    fun v s hb hr => (whenBench_of_bench hb ..).trans (whenRunning_of_not hr _),
    fun v s hi hb hr => ⟨_, eval_cycle hi v s.now, ?_⟩⟩
  rw [exec_sample hb hr, complete_eval]

theorem step_of_poll {s : State} {ans : ReadAns} (ht : (nextInput s).turn = .poll ans) :
    step s = .next (pollStep ans (takeInput s)) := by
  simp [step, ht, takeTurn]

/-- Settles O23: POLLSTEP in the state with the input taken, read for a byte, a failure, and outside
RUNNING. -/
theorem pollStepReadsOnce : Obligations.PollStepReadsOnce := by
  refine ⟨fun s v hi ht hr => ⟨_, eval_cycle (inv_takeInput hi) v (nextInput s).now, ?_⟩,
    fun s ht hr => ?_, fun s t ans ht hr h => ?_⟩
  · rw [step_of_poll ht, pollStep_ok (s := takeInput s) hr]
    rfl
  · rw [step_of_poll ht, pollStep_fail (s := takeInput s) hr]
    rfl
  · rw [step_of_poll ht, pollStep_disabled (s := takeInput s) hr] at h
    cases h
    exact ⟨takeInput_sameBlock s, rfl, rfl, rfl⟩

end Sys2Proof.Machine
end

section
/-! PROOF. The order of checks outside RUNNING (60_exceptions.md R206, R212), and the terminal states
(R214): what the decoder hands to the block is accepted, so there every operation is refused. -/

namespace Sys2Proof

open Sys2Proof.Safety

/-! ## What decodes is accepted (30_encoding.md R99, R100) -/

theorem decodeC_eq_ok {cw : Word} {f : Byte → Instr} {i : Instr} (h : decodeC cw f = .ok i) :
    i = f (fieldC cw) := by
  unfold decodeC at h
  split at h <;> cases h
  rfl

theorem decodeN_eq_ok {cw : Word} {f : BitVec 3 → Instr} {i : Instr} (h : decodeN cw f = .ok i) :
    i = f (fieldN cw) ∧ fieldN cw ≤ 4#3 := by
  unfold decodeN at h
  split_ifs at h with _ hn
  cases h
  exact ⟨rfl, hn⟩

theorem decodeHalt_eq_ok {cw : Word} {i : Instr} (h : decodeHalt cw = .ok i) : i = .halt := by
  unfold decodeHalt at h
  split at h <;> cases h
  rfl

theorem decodeE_eq_ok {cw : Word} {i : Instr} (h : decodeE cw = .ok i) :
    i = .recv (fieldE cw) := by
  unfold decodeE at h
  split at h <;> cases h
  rfl

theorem decodeBench_eq_ok {bench : Bool} {cw : Word} {f : Byte → Instr} {i : Instr}
    (h : decodeBench bench cw f = .ok i) : i = f (fieldC cw) ∧ bench = true := by
  unfold decodeBench at h
  split_ifs at h with hb
  exact ⟨decodeC_eq_ok h, hb⟩

theorem accepted_subp_iff {bench : Bool} {n : BitVec 3} :
    (Instr.subp n).accepted bench = true ↔ n ≤ 4#3 := by
  simp [Instr.accepted, Instr.wf, Instr.isBench]

theorem accepted_subr_iff {bench : Bool} {n : BitVec 3} :
    (Instr.subr n).accepted bench = true ↔ n ≤ 4#3 := by
  simp [Instr.accepted, Instr.wf, Instr.isBench]

/-- Only the button rows and the bench rows have a condition on top of their mask, and the decoder
checks it. -/
theorem accepted_of_decode {bench : Bool} {cw : Word} {i : Instr} (h : decode bench cw = .ok i) :
    i.accepted bench = true := by
  unfold decode at h
  split_ifs at h with setcolor setbrt subp subr halt recv encb sample
  · cases h; rfl
  · cases decodeC_eq_ok h; rfl
  · obtain ⟨rfl, hn⟩ := decodeN_eq_ok h
    exact accepted_subp_iff.mpr hn
  · obtain ⟨rfl, hn⟩ := decodeN_eq_ok h
    exact accepted_subr_iff.mpr hn
  · cases decodeHalt_eq_ok h; rfl
  · cases decodeE_eq_ok h; rfl
  · obtain ⟨rfl, rfl⟩ := decodeBench_eq_ok h; rfl
  · obtain ⟨rfl, rfl⟩ := decodeBench_eq_ok h; rfl

theorem not_legalWord_of_decode_error {bench : Bool} {cw : Word} {e : DecodeError}
    (h : decode bench cw = .error e) : legalWord bench cw = false := by
  rw [← Bool.not_eq_true, ← decode_ok_iff_legalWord, h]
  simp

end Sys2Proof

namespace Sys2Proof.Machine

open Sys2Proof.Safety

/-! ## Operations outside RUNNING (R206, R212) -/

/-- The check of STATUS is the first that an accepted operation can fail: the checks before it, of the
button number and of BENCH, are passed. -/
theorem exec_of_not_running {i : Instr} {s : State} (ha : i.accepted s.params.bench = true)
    (hr : s.status ≠ .running) :
    exec i s = .next (complete s (.err (.notRunning s.status s.cause))) := by
  cases i with
  | setcolor | setbrt | halt | recv => exact whenRunning_of_not hr _
  | subp n =>
    obtain ⟨b, hb⟩ := (buttonOf_isSome_iff n).mp (accepted_subp_iff.mp ha)
    simp only [exec, execSubp, hb]
    exact whenRunning_of_not hr _
  | subr n =>
    obtain ⟨b, hb⟩ := (buttonOf_isSome_iff n).mp (accepted_subr_iff.mp ha)
    simp only [exec, execSubr, hb]
    exact whenRunning_of_not hr _
  | encb | sample => exact (whenBench_of_bench ha ..).trans (whenRunning_of_not hr _)

/-- Settles O26: `exec_of_not_running`, with the completion written out. -/
theorem notRunningRefusesAll : Obligations.NotRunningRefusesAll :=
  fun _ _ ha hr => exec_of_not_running ha hr

/-! ## The terminal states (R214) -/

theorem step_of_decode {s : State} {cw : Word} {i : Instr} (ht : (nextInput s).turn = .host)
    (hw : s.program[s.pi]? = some cw) (hd : decode s.params.bench cw = .ok i) :
    step s = exec i (takeInput s) := by
  simp [step_of_host ht, hostTurn, presentedWord, hw, hd]

/-- The host's operation in any state but RUNNING. -/
theorem step_of_decode_not_running {s : State} {cw : Word} {i : Instr}
    (ht : (nextInput s).turn = .host) (hw : s.program[s.pi]? = some cw)
    (hd : decode s.params.bench cw = .ok i) (hr : s.status ≠ .running) :
    step s = .next (complete (takeInput s) (.err (.notRunning s.status s.cause))) := by
  rw [step_of_decode ht hw hd]
  exact exec_of_not_running (s := takeInput s) (accepted_of_decode hd) hr

/-- All that a step other than reset can do in a terminal state: take its input, and refuse what the
host presents. LEDSTEP and POLLSTEP ask for RUNNING, CONFIGURE for RESET, INIT for CONFIGURED. -/
theorem step_of_terminal {s t : State} (hs : s.status = .faulted ∨ s.status = .setupFailed)
    (h : step s = .next t) (hn : (nextInput s).turn ≠ .reset) :
    t = takeInput s
      ∨ t = complete (takeInput s) (.err (.notRunning s.status s.cause))
      ∨ ∃ cw, s.program[s.pi]? = some cw ∧ legalWord s.params.bench cw = false
        ∧ t = illegal cw (takeInput s) := by
  have hoff : s.status ≠ .running ∧ s.status ≠ .reset ∧ s.status ≠ .configured := by
    rcases hs with hs | hs <;> simp [hs]
  obtain ⟨notRunning, notReset, notConfigured⟩ := hoff
  cases step_next h with
  | hostIdle | agentIdle => exact .inl rfl
  | hostIllegal cw e _ hw hd => exact .inr (.inr ⟨cw, hw, not_legalWord_of_decode_error hd, rfl⟩)
  | hostOp cw i _ ht hw hd =>
    rw [step_of_decode_not_running ht hw hd notRunning] at h
    cases h
    exact .inr (.inl rfl)
  | ledOk | ledFail | pollOk | pollFail => contradiction
  | configured | configureRefused => contradiction
  | init0 | init1 | init2 | initDone => contradiction
  | reset => contradiction

/-- Settles O31: the frame and the results from `step_of_terminal`, a presented operation from
`step_of_decode_not_running`. -/
theorem terminalUntilReset : Obligations.TerminalUntilReset := by
  intro s t hs h hn
  have hr : s.status ≠ .running := by rcases hs with hs | hs <;> simp [hs]
  have hop : ∀ cw i, (nextInput s).turn = .host → s.program[s.pi]? = some cw →
      decode s.params.bench cw = .ok i →
      t.results = s.results ++ [.err (.notRunning s.status s.cause)] ∧ t.pi = s.pi + 1 := by
    intro cw i ht hw hd
    rw [step_of_decode_not_running ht hw hd hr] at h
    cases h
    exact ⟨rfl, rfl⟩
  rcases step_of_terminal hs h hn with rfl | rfl | ⟨cw, hw, hl, rfl⟩
  · exact ⟨takeInput_sameBlock s, rfl, hop, .inl rfl⟩
  · exact ⟨takeInput_sameBlock s, rfl, hop, .inr (.inl rfl)⟩
  · exact ⟨takeInput_sameBlock s, rfl, hop, .inr (.inr ⟨cw, hw, hl, rfl⟩)⟩

end Sys2Proof.Machine
end

section
/-! PROOF. Reset from any state (70_reset_and_hazards.md R240). -/

namespace Sys2Proof.Machine

open Sys2Proof.Safety

/-- Reset asks nothing of the state it is taken in. -/
theorem step_of_reset {s : State} (ht : (nextInput s).turn = .reset) :
    step s = .next (resetBlock (takeInput s)) := by
  simp [step, ht, takeTurn]

/-- A reset leaves nothing of the block it discards (R240). -/
theorem resetBlock_sameBlock (s : State) : sameBlock (resetBlock s) State.reset := by
  simp [sameBlock]

/-- Settles O34: the step is `resetBlock`, whose registers and program index are those of
`State.reset` and whose log is the one the step began with. -/
theorem resetFromAnyState : Obligations.ResetFromAnyState := by
  intro s ht
  have hpi : (resetBlock (takeInput s)).pi = 0 := resetBlock_pi _
  have hlog : (resetBlock (takeInput s)).xfers = s.xfers := by simp
  exact ⟨_, step_of_reset ht, resetBlock_sameBlock _, hpi, hlog⟩

end Sys2Proof.Machine
end

section
/-! PROOF. Operations and their command words (30_encoding.md R97 to R100): the decoder and the
encoder are inverse to one another, and what the decoder would not hand over is refused first
(R212). -/

namespace Sys2Proof

/-! ## The words of the rows whose operand is not a byte (R98) -/

/-- The low byte of SUBP and SUBR: five bits that must be 0, then the button number. -/
theorem fieldC_of_button (cw : Word) : fieldC cw = fieldCHi cw ++ fieldN cw := by
  apply BitVec.eq_of_getLsbD_eq
  intro i hi
  simp [fieldC, fieldCHi, fieldN]
  grind

theorem encode_subp_bytes (n : BitVec 3) :
    encode (.subp n) = 0x03#8 ++ 0#8 ++ 0#8 ++ (0#5 ++ n : Byte) := by
  revert n
  decide

theorem encode_subr_bytes (n : BitVec 3) :
    encode (.subr n) = 0x04#8 ++ 0#8 ++ 0#8 ++ (0#5 ++ n : Byte) := by
  revert n
  decide

/-- The low byte of a button's word, read back. -/
theorem button_fields (n : BitVec 3) :
    (0#5 ++ n : Byte).extractLsb' 3 5 = 0#5 ∧ (0#5 ++ n : Byte).extractLsb' 0 3 = n := by
  revert n
  decide

/-- The id of RECV takes the two low bytes. -/
theorem encode_recv_bytes (b c : Byte) : encode (.recv (b ++ c)) = 0x06#8 ++ 0#8 ++ b ++ c := by
  apply BitVec.eq_of_getLsbD_eq
  intro i hi
  simp [encode]
  grind

theorem id_of_bytes (e : EpId) : e.extractLsb' 8 8 ++ e.extractLsb' 0 8 = e := by
  apply BitVec.eq_of_getLsbD_eq
  intro i hi
  simp
  grind

/-! ## Decoding what was encoded -/

/-- A button row of the decoder on a well-formed word. -/
theorem decodeN_button {n : BitVec 3} (hn : n ≤ 4#3) (op : Byte) (f : BitVec 3 → Instr) :
    decodeN (op ++ 0#8 ++ 0#8 ++ (0#5 ++ n : Byte)) f = .ok (f n) := by
  obtain ⟨hhi, hlo⟩ := button_fields n
  have hhi' := (fieldCHi_bytes op 0#8 0#8 (0#5 ++ n)).trans hhi
  have hlo' := (fieldN_bytes op 0#8 0#8 (0#5 ++ n)).trans hlo
  rw [decodeN, if_pos ⟨fieldA_bytes .., fieldB_bytes .., hhi'⟩, hlo', if_pos hn]

/-- A row with one byte of operand on its word. -/
theorem decodeC_byte (op x : Byte) (f : Byte → Instr) :
    decodeC (op ++ 0#8 ++ 0#8 ++ x) f = .ok (f x) := by
  rw [decodeC, if_pos ⟨fieldA_bytes .., fieldB_bytes ..⟩, fieldC_bytes]

/-- The row RECV on its word. -/
theorem decodeE_id (op b c : Byte) : decodeE (op ++ 0#8 ++ b ++ c) = .ok (.recv (b ++ c)) := by
  rw [decodeE, if_pos (fieldA_bytes ..), fieldE_bytes]

/-- A bench row where BENCH admits it. -/
theorem decodeBench_byte {bench : Bool} (hb : bench = true) (op x : Byte) (f : Byte → Instr) :
    decodeBench bench (op ++ 0#8 ++ 0#8 ++ x) f = .ok (f x) :=
  (if_pos hb).trans (decodeC_byte op x f)

/-- OP selects the row of the map (R109); the rows are disjoint, so no other row is looked at. -/
theorem decode_of_op {bench : Bool} {cw : Word} :
    (fieldOp cw = 0x01#8 → decode bench cw = .ok (.setcolor (fieldA cw) (fieldB cw) (fieldC cw)))
    ∧ (fieldOp cw = 0x02#8 → decode bench cw = decodeC cw .setbrt)
    ∧ (fieldOp cw = 0x03#8 → decode bench cw = decodeN cw .subp)
    ∧ (fieldOp cw = 0x04#8 → decode bench cw = decodeN cw .subr)
    ∧ (fieldOp cw = 0x06#8 → decode bench cw = decodeE cw)
    ∧ (fieldOp cw = 0x10#8 → decode bench cw = decodeBench bench cw .encb)
    ∧ (fieldOp cw = 0x11#8 → decode bench cw = decodeBench bench cw .sample) := by
  refine ⟨?_, ?_, ?_, ?_, ?_, ?_, ?_⟩ <;> intro h <;> simp [decode, h]

/-- Settles O2: OP selects the operation's row, and the row reads its operands back. -/
theorem decodeOfEncode : Obligations.DecodeOfEncode := by
  intro bench i ha
  obtain ⟨setcolor, setbrt, subp, subr, recv, encb, sample⟩ :=
    @decode_of_op bench (encode i)
  cases i with
  | setcolor r g b =>
    rw [setcolor (fieldOp_bytes ..), encode, fieldA_bytes, fieldB_bytes, fieldC_bytes]
  | setbrt l => exact (setbrt (fieldOp_bytes ..)).trans (decodeC_byte ..)
  | subp n =>
    rw [encode_subp_bytes] at subp ⊢
    exact (subp (fieldOp_bytes ..)).trans (decodeN_button (accepted_subp_iff.mp ha) ..)
  | subr n =>
    rw [encode_subr_bytes] at subr ⊢
    exact (subr (fieldOp_bytes ..)).trans (decodeN_button (accepted_subr_iff.mp ha) ..)
  | halt => cases bench <;> decide
  | recv e =>
    rw [← id_of_bytes e, encode_recv_bytes] at recv ⊢
    exact (recv (fieldOp_bytes ..)).trans (decodeE_id ..)
  | encb b => exact (encb (fieldOp_bytes ..)).trans (decodeBench_byte ha ..)
  | sample v => exact (sample (fieldOp_bytes ..)).trans (decodeBench_byte ha ..)

/-! ## Encoding what was decoded -/

/-- A word with its four fields known. -/
theorem word_of_fields {cw : Word} {op a b c : Byte} (hop : fieldOp cw = op) (ha : fieldA cw = a)
    (hb : fieldB cw = b) (hc : fieldC cw = c) : (op ++ a ++ b ++ c : BitVec 32) = cw := by
  rw [← hop, ← ha, ← hb, ← hc]
  exact bytes_of_word cw

/-- The word of an operation with one byte of operand. -/
theorem word_of_decodeC {cw : Word} {op : Byte} {f : Byte → Instr} {i : Instr}
    (hop : fieldOp cw = op) (h : decodeC cw f = .ok i) :
    i = f (fieldC cw) ∧ (op ++ 0#8 ++ 0#8 ++ fieldC cw : BitVec 32) = cw := by
  obtain ⟨ha, hb⟩ := (decodeC_ok_iff cw f).mp ⟨i, h⟩
  exact ⟨decodeC_eq_ok h, word_of_fields hop ha hb rfl⟩

/-- The word of an operation on a button. -/
theorem word_of_decodeN {cw : Word} {op : Byte} {f : BitVec 3 → Instr} {i : Instr}
    (hop : fieldOp cw = op) (h : decodeN cw f = .ok i) :
    i = f (fieldN cw) ∧ (op ++ 0#8 ++ 0#8 ++ (0#5 ++ fieldN cw : Byte) : BitVec 32) = cw := by
  obtain ⟨⟨ha, hb, hhi⟩, -⟩ := (decodeN_ok_iff cw f).mp ⟨i, h⟩
  refine ⟨(decodeN_eq_ok h).1, word_of_fields hop ha hb ?_⟩
  rw [fieldC_of_button, hhi]

/-- Every row fixes the bits that are not operands, so the operands fix the word. -/
theorem encode_of_decode {bench : Bool} {cw : Word} {i : Instr} (h : decode bench cw = .ok i) :
    encode i = cw := by
  unfold decode at h
  split_ifs at h with setcolor setbrt subp subr halt recv encb sample
  · cases h
    exact word_of_fields setcolor rfl rfl rfl
  · obtain ⟨rfl, hcw⟩ := word_of_decodeC setbrt h
    exact hcw
  · obtain ⟨rfl, hcw⟩ := word_of_decodeN subp h
    rw [encode_subp_bytes, hcw]
  · obtain ⟨rfl, hcw⟩ := word_of_decodeN subr h
    rw [encode_subr_bytes, hcw]
  · obtain ⟨ha, hb, hc⟩ := (decodeHalt_ok_iff cw).mp ⟨i, h⟩
    rw [decodeHalt_eq_ok h]
    exact word_of_fields halt ha hb hc
  · have ha := (decodeE_ok_iff cw).mp ⟨i, h⟩
    rw [decodeE_eq_ok h, fieldE_of_fields, encode_recv_bytes]
    exact word_of_fields recv ha rfl rfl
  · obtain ⟨-, rfl⟩ := decodeBench_eq_ok h
    obtain ⟨rfl, hcw⟩ := word_of_decodeC encb h
    exact hcw
  · obtain ⟨-, rfl⟩ := decodeBench_eq_ok h
    obtain ⟨rfl, hcw⟩ := word_of_decodeC sample h
    exact hcw

/-- Settles O3: the word from `encode_of_decode`, acceptance from `accepted_of_decode`. -/
theorem encodeOfDecode : Obligations.EncodeOfDecode :=
  fun _ _ _ h => ⟨encode_of_decode h, accepted_of_decode h⟩

/-- Settles O1: the decoder computes on each of the fourteen words. -/
theorem listedWordsDecode : Obligations.ListedWordsDecode := by
  unfold Obligations.ListedWordsDecode
  decide

end Sys2Proof

namespace Sys2Proof.Machine

/-- Settles O27: an operation the block does not accept names a button above 4, or is a bench
operation with BENCH false; both are caught before STATUS is read. -/
theorem illegalComesFirst : Obligations.IllegalComesFirst := by
  intro i s ha
  cases i with
  | setcolor | setbrt | halt | recv => cases ha
  | subp n =>
    have hn : buttonOf n = none :=
      buttonOf_of_gt n fun hle => by simp [accepted_subp_iff.mpr hle] at ha
    simp only [exec, execSubp, hn]
    rfl
  | subr n =>
    have hn : buttonOf n = none :=
      buttonOf_of_gt n fun hle => by simp [accepted_subr_iff.mpr hle] at ha
    simp only [exec, execSubr, hn]
    rfl
  | encb | sample => exact whenBench_of_not ha _ _

end Sys2Proof.Machine
end

section
/-! PROOF. The invariant of 10_state.md R44: it holds after reset, and every step keeps it. -/

namespace Sys2Proof.Machine

open Sys2Proof.Safety

/-! ## After reset -/

/-- No endpoint exists after reset, so none has a name. -/
theorem reset_unnamed (p : Params) (id : Nat) (k : Kind) (b : Button) :
    ¬ names { State.reset with params := p } id k b := by
  rintro ⟨x, hx, -⟩
  cases hx

/-- The state after reset meets the invariant for every admissible choice of the parameters. -/
theorem inv_reset {p : Params} (hp : p.admissible = true) :
    Inv { State.reset with params := p } where
  admissible := hp
  snapOther := BitVec.zero_and
  frameOther := List.forall_mem_nil _
  frameLen := rfl
  t0Iff b := by simp only [reset_t0, reset_pressed]; rfl
  nextEp := rfl
  epMax := Nat.zero_le _
  psubMem b id := by simp only [reset_psub, List.not_mem_nil, reset_unnamed]
  rsubMem b id := by simp only [reset_rsub, List.not_mem_nil, reset_unnamed]
  psubNodup b := by simp only [reset_psub, List.nodup_nil]
  rsubNodup b := by simp only [reset_rsub, List.nodup_nil]
  room := List.forall_mem_nil _
  payloads := List.forall_mem_nil _
  causeNone _ := rfl
  causeSetup := nofun
  causeFault := nofun
  gammaSet := rfl
  intervalSet := rfl

theorem config_params_admissible : Config.params.admissible = true := by
  simp [Params.admissible, Config.params]

/-- Settles O39: the default parameters are admissible. -/
theorem resetMeetsTheInvariant : Obligations.ResetMeetsTheInvariant :=
  inv_reset config_params_admissible

theorem inv_resetBlock {s : State} (hi : Inv s) : Inv (resetBlock s) :=
  inv_of_sameBlock (inv_reset hi.admissible) (resetBlock_sameBlock s) rfl

/-! ## The ports and boot -/

theorem inv_xfer {s : State} (hi : Inv s) (x : List Xfer) : Inv { s with xfers := x } :=
  inv_of_sameBlock hi (by simp [sameBlock]) rfl

theorem inv_bootReturn {s : State} (hi : Inv s) (r : BootReturn) : Inv (bootReturn r s) :=
  inv_of_sameBlock hi (by simp [sameBlock, bootReturn]) rfl

/-- CONFIGURE sets GAMMA and POLL_INTERVAL as it leaves RESET (70_reset_and_hazards.md R244). -/
theorem inv_install {s : State} (hi : Inv s) (hr : s.status = .reset) (g : Vector Byte 256)
    (p : Option Time) : Inv (install g p s) :=
  { hi with
    causeNone := fun _ => hi.causeNone (.inl hr), causeSetup := nofun, causeFault := nofun
    gammaSet := rfl, intervalSet := rfl }

theorem configured_sets {s : State} (hi : Inv s) (hr : s.status = .configured) :
    s.gamma.isSome = true ∧ s.pollInterval.isSome = true := by
  rw [hi.gammaSet, hi.intervalSet, hr]
  exact ⟨rfl, rfl⟩

/-- A failed setup write stores its index (60_exceptions.md R213). -/
theorem inv_setupError {s : State} (hi : Inv s) (hr : s.status = .configured) (index : Fin 3) :
    Inv (setupError index s) := by
  obtain ⟨hgamma, hinterval⟩ := configured_sets hi hr
  have hfault : Inv (faultEntry (.setup index) s) :=
    { hi with
      causeNone := nofun, causeSetup := fun _ => ⟨index, rfl⟩, causeFault := nofun
      gammaSet := hgamma, intervalSet := hinterval }
  exact inv_bootReturn hfault _

/-- The setup writes done, the block is RUNNING with CAUSE still NONE (70_reset_and_hazards.md
R246). -/
theorem inv_running {s : State} (hi : Inv s) (hr : s.status = .configured) :
    Inv { s with status := .running } := by
  obtain ⟨hgamma, hinterval⟩ := configured_sets hi hr
  exact { hi with
    causeNone := fun _ => hi.causeNone (.inr (.inl hr)), causeSetup := nofun, causeFault := nofun
    gammaSet := hgamma, intervalSet := hinterval }

/-! ## An operation -/

/-- A request in MBOX is no part of the invariant. -/
theorem inv_mbox {s : State} (hi : Inv s) (m : Mbox) : Inv { s with mbox := m } :=
  inv_colourPath hi m s.snap s.frame s.brt hi.snapOther hi.frameOther hi.frameLen

/-- Nor is BRT. -/
theorem inv_brt {s : State} (hi : Inv s) (l : Byte) : Inv { s with brt := l } :=
  inv_colourPath hi s.mbox s.snap s.frame l hi.snapOther hi.frameOther hi.frameLen

/-- ENCB appends sixteen snapshots, whose other pins are those of SNAP (40_encoder.md R121, R123).
-/
theorem inv_shiftOut {s : State} (hi : Inv s) (b : Byte) : Inv (shiftOut s b) := by
  rw [shiftOut_spec s (inv_clk_ne_dat hi)]
  refine inv_colourPath hi s.mbox _ _ s.brt ?snap ?frame ?len
  case snap => rw [imageSnapshot_other, hi.snapOther]
  case frame =>
    exact List.forall_mem_append.mpr ⟨hi.frameOther, image_other s.params s.snap b hi.snapOther⟩
  case len => rw [List.length_append, image_length, Nat.add_mod_right, hi.frameLen]

theorem effect_keeps_inv {s t : State} {i : Instr} (h : Effect s i t) (hi : Inv s) : Inv t := by
  cases h with
  | holds => exact hi
  | refused => exact inv_complete hi _
  | setcolor | halt => exact inv_complete (inv_mbox hi _) _
  | setbrt l => exact inv_complete (inv_brt hi l) _
  | subp n b hr hn => exact inv_complete (inv_subp hi b hn) _
  | subr n b hr hn => exact inv_complete (inv_subr hi b hn) _
  | recv e x p rest r hr hx hq => exact inv_complete (inv_recv hi e.toNat x p rest hx hq) r
  | encb b => exact inv_complete (inv_shiftOut hi b) _
  | sample v => exact inv_complete (inv_eval hi v s.now) _

/-! ## A step -/

/-- LEDSTEP fills FRAME anew with 128 snapshots of the encoder (40_encoder.md R130). -/
theorem inv_encoded {u : State} (hi : Inv u) {c : List Byte} {snap : Byte} {f : List Byte}
    (hf : f.length = 128)
    (he : encodeCommand c { u with mbox := .empty }
      = { u with mbox := .empty, snap := snap, frame := f }) :
    Inv { u with mbox := .empty, snap := snap, frame := f } := by
  have hne := inv_clk_ne_dat hi
  have hsnap : snap &&& ~~~ pinMask u.params = u.snap &&& ~~~ pinMask u.params := by
    have h := encodeCommand_keeps_otherPins c { u with mbox := .empty } hne
    rwa [he] at h
  have hframe : f = frameOf u.params u.snap c := by
    have h := encodeCommand_frame c { u with mbox := .empty } hne
    rwa [he] at h
  refine inv_colourPath hi _ snap f u.brt (hsnap.trans hi.snapOther) ?_ (by rw [hf])
  subst hframe
  exact fun x hx => (frameOf_keeps_otherPins _ _ _ x hx).trans hi.snapOther

theorem move_keeps_inv {s t : State} (h : Move s (takeInput s) t) (hi : Inv s) : Inv t := by
  have hu := inv_takeInput hi
  cases h with
  | hostIdle | agentIdle => exact hu
  | hostIllegal => exact inv_complete hu _
  | hostOp cw i _ ht hw hd he => exact effect_keeps_inv he hu
  | ledOk r g b snap f ht hr hm hf he => exact inv_xfer (inv_encoded hu hf he) _
  | ledFail r g b snap f ht hr hm hf he =>
    exact inv_xfer (inv_fault (inv_encoded hu hf he) hr .write) _
  | pollOk v => exact inv_xfer (inv_eval hu v _) _
  | pollFail ht hr => exact inv_xfer (inv_fault hu hr .read) _
  | configured g p table ht hr => exact inv_bootReturn (inv_install hu hr table p) _
  | configureRefused => exact inv_bootReturn hu _
  | init0 a1 a2 ht hr => exact inv_setupError (inv_xfer hu _) hr 0
  | init1 a2 ht hr => exact inv_setupError (inv_xfer (inv_xfer hu _) _) hr 1
  | init2 ht hr => exact inv_setupError (inv_xfer (inv_xfer (inv_xfer hu _) _) _) hr 2
  | initDone ht hr =>
    exact inv_bootReturn (inv_running (inv_xfer (inv_xfer (inv_xfer hu _) _) _) hr) _
  | reset => exact inv_resetBlock hu

/-- Settles O40: `move_keeps_inv`, one case per way a step can go. -/
theorem stepKeepsTheInvariant : Obligations.StepKeepsTheInvariant :=
  fun _ _ hi h => move_keeps_inv (step_next h) hi

end Sys2Proof.Machine
end

section
/-! PROOF. The encoder in closed form (40_encoder.md R121, R124, R125), the arithmetic of the colour
path (R127, R128, R131), and the parts of a frame (R136). -/

namespace Sys2Proof.Machine

open Sys2Proof.Safety

/-! ## ENCB (R121) -/

/-- The state after ENCB: the snapshots of the closed form appended, SNAP the last of them. -/
def afterEncb (s : State) (b : Byte) : State :=
  complete { s with
    snap := imageSnapshot s.params s.snap b 15
    frame := s.frame ++ image s.params s.snap b } .ok

theorem exec_encb_image {s : State} (hne : s.params.clkBit ≠ s.params.datBit)
    (hb : s.params.bench = true) (hr : s.status = .running) (b : Byte) :
    exec (.encb b) s = .next (afterEncb s b) := by
  rw [exec_encb hb hr, shiftOut_spec s hne]
  rfl

theorem encb_frame {s t : State} {b : Byte} (hne : s.params.clkBit ≠ s.params.datBit)
    (hb : s.params.bench = true) (hr : s.status = .running) (h : exec (.encb b) s = .next t) :
    t.frame = s.frame ++ image s.params s.snap b := by
  rw [exec_encb_image hne hb hr] at h
  cases h
  rfl

/-- Settles O9: the closed form is that of `shiftOut_spec`, and an image depends on the other pins
of SNAP only. -/
theorem encbAppendsTheImage : Obligations.EncbAppendsTheImage := by
  refine ⟨fun b s hne hb hr => ?_, fun b s t s' t' hne hp hsnap hs ht hb hr hr' => ?_⟩
  · have hlast : imageSnapshot s.params s.snap b 15
        = (s.snap &&& ~~~ pinMask s.params)
          ||| (if b.getLsbD 0 then bitMask s.params.datBit else 0#8)
          ||| bitMask s.params.clkBit := rfl
    rw [← hlast]
    exact exec_encb_image hne hb hr b
  · rw [encb_frame hne hb hr hs, encb_frame (hp ▸ hne) (hp ▸ hb) hr' ht, List.drop_left,
      List.drop_left, ← hp]
    exact image_congr _ hsnap b

/-! ## Images compared (R124) -/

theorem image_getD (p : Params) (s0 b : Byte) {j : Nat} (hj : j < 16) :
    (image p s0 b).getD j 0#8 = imageSnapshot p s0 b j := by
  simp [image, hj]

/-- The clock bit of a snapshot counts, its data bit sends `b`, its other bits are those of SNAP. -/
theorem image_getLsbD {p : Params} (hne : p.clkBit ≠ p.datBit) (s0 b : Byte) {j k : Nat}
    (hj : j < 16) (hk : k < 8) :
    ((image p s0 b).getD j 0#8).getLsbD k
      = if k = p.clkBit.val then decide (j % 2 = 1)
        else if k = p.datBit.val then b.getLsbD (7 - j / 2) else s0[k] := by
  rw [image_getD p s0 b hj, BitVec.getLsbD_eq_getElem hk, imageSnapshot_getElem p hne s0 b j k hk]

theorem image_clk {p : Params} (hne : p.clkBit ≠ p.datBit) (s0 b : Byte) {j : Nat} (hj : j < 16) :
    ((image p s0 b).getD j 0#8).getLsbD p.clkBit = decide (j % 2 = 1) := by
  rw [image_getLsbD hne s0 b hj p.clkBit.isLt, if_pos rfl]

theorem image_dat {p : Params} (hne : p.clkBit ≠ p.datBit) (s0 b : Byte) {j : Nat} (hj : j < 16) :
    ((image p s0 b).getD j 0#8).getLsbD p.datBit = b.getLsbD (7 - j / 2) := by
  have hdat : p.datBit.val ≠ p.clkBit.val := fun h => hne (Fin.ext h.symm)
  rw [image_getLsbD hne s0 b hj p.datBit.isLt, if_neg hdat, if_pos rfl]

/-- An image reads the pins of the parameters and nothing else of them. -/
theorem image_of_pins {p q : Params} (hclk : p.clkBit = q.clkBit) (hdat : p.datBit = q.datBit)
    (s0 b : Byte) : image p s0 b = image q s0 b := by
  unfold image imageSnapshot pinMask
  rw [hclk, hdat]

/-- Settles O11: both images start from one SNAP, and so does the second one after the first, the
other pins being kept; the two listed images are computed at the default pins. -/
theorem imagesDifferInDataOnly : Obligations.ImagesDifferInDataOnly := by
  refine ⟨fun b b' s hne hb hr => ?_, fun s hclk hdat hsnap hb hr => ?_⟩
  · have hsecond := exec_encb_image (s := afterEncb s b) hne hb hr b'
    refine ⟨_, _, _, image s.params s.snap b, image s.params s.snap b', exec_encb_image hne hb hr b,
      exec_encb_image hne hb hr b', hsecond, rfl, rfl, ?second,
      image_length .., image_length .., fun j k hj hk hkd => ?other, fun j hj => ?data,
      fun j hj => image_clk hne _ _ hj⟩
    case second => exact congrArg _ (image_congr s.params (imageSnapshot_other ..) b')
    case other => simp only [image_getLsbD hne _ _ hj hk, if_neg hkd]
    case data => rw [image_dat hne _ _ hj, image_dat hne _ _ hj]
  · have hne : s.params.clkBit ≠ s.params.datBit := by rw [hclk, hdat]; decide
    have himage := image_of_pins (q := Config.params) hclk hdat s.snap
    have hzeros : image s.params s.snap 0x00#8
        = (List.replicate 8 [0x00#8, 0x40#8]).flatten := by
      rw [himage, hsnap]
      decide
    have hones : image s.params s.snap 0xFF#8
        = (List.replicate 8 [0x80#8, 0xC0#8]).flatten := by
      rw [himage, hsnap]
      decide
    exact ⟨_, _, exec_encb_image hne hb hr _, exec_encb_image hne hb hr _,
      congrArg _ hzeros, congrArg _ hones⟩

/-! ## The round trip (R125) -/

/-- A byte is the sum of its bits, most significant first. -/
theorem sum_of_bits (b : Byte) :
    ((List.range 8).map fun k => if b.getLsbD (7 - k) then 2 ^ (7 - k) else 0).sum = b.toNat := by
  revert b
  decide

/-- The decoder of R108 undoes the encoder: snapshot 2k + 1 has the clock high and sends bit 7 - k.
-/
theorem readBack_image {p : Params} (hne : p.clkBit ≠ p.datBit) (s0 b : Byte) :
    readBack p (image p s0 b) = b := by
  have hbits : ∀ k ∈ List.range 8,
      (if ((image p s0 b).getD (2 * k + 1) 0#8).getLsbD p.datBit then 2 ^ (7 - k) else 0)
        = if b.getLsbD (7 - k) then 2 ^ (7 - k) else 0 := by
    intro k hk
    have hk' : k < 8 := List.mem_range.mp hk
    have hhalf : (2 * k + 1) / 2 = k := by omega
    rw [image_dat hne s0 b (by omega), hhalf]
  rw [readBack, List.map_congr_left hbits, sum_of_bits, BitVec.ofNat_toNat, BitVec.setWidth_eq]

/-- Settles O12: what ENCB appended is the image, and the image reads back. -/
theorem encodedByteReadsBack : Obligations.EncodedByteReadsBack := by
  intro b s hne hb hr
  have h := exec_encb_image hne hb hr b
  refine ⟨_, h, ?_⟩
  rw [encb_frame hne hb hr h, List.drop_left, readBack_image hne]

/-! ## The arithmetic of the colour path (R127, R128) -/

theorem byte_le (x : Byte) : x.toNat ≤ 255 := Nat.le_of_lt_succ x.isLt

theorem product_le (raw t : Byte) : raw.toNat * t.toNat ≤ 255 * 255 :=
  Nat.mul_le_mul (byte_le raw) (byte_le t)

/-- The clamp never binds. -/
theorem scaled_eq_div (raw t : Byte) : scaled raw t = raw.toNat * t.toNat / 255 :=
  Nat.min_eq_right (Nat.div_le_of_le_mul (product_le raw t))

/-- Only the largest product has the quotient 255. -/
theorem scaled_eq_max_iff (raw t : Byte) : scaled raw t = 255 ↔ raw = 255#8 ∧ t = 255#8 := by
  have hraw := byte_le raw
  have ht := byte_le t
  rw [scaled_eq_div]
  constructor
  · intro h
    have hbig : 255 * 255 ≤ raw.toNat * t.toNat := by omega
    have hr : raw.toNat = 255 := by nlinarith
    have ht' : t.toNat = 255 := by nlinarith
    exact ⟨BitVec.eq_of_toNat_eq hr, BitVec.eq_of_toNat_eq ht'⟩
  · rintro ⟨rfl, rfl⟩
    rfl

/-- Settles O13: the index is `scaled`, whose quotient never exceeds 255. -/
theorem scalingIsExact : Obligations.ScalingIsExact := by
  intro raw t
  rw [scaleIndex_toNat, scaled_eq_max_iff, scaled_eq_div]
  exact ⟨product_le raw t, Nat.div_le_of_le_mul (product_le raw t), rfl, Iff.rfl⟩

/-! ## RESOLVE (R131) -/

theorem scaled_dark (raw : Byte) : scaled raw 0#8 = 0 := by
  simp [scaled]

/-- At brightness 0 every channel is gamma(0). -/
theorem channel_dark (table : Vector Byte 256) (raw : Byte) :
    channel (some table) 0#8 raw = table[0] :=
  channel_of_getElem? (by rw [scaled_dark]; rfl)

/-- With the identity table a channel is the scaled index itself. -/
theorem channel_identity (t raw : Byte) :
    channel (some (Vector.ofFn fun i => BitVec.ofNat 8 i.val)) t raw = scaleIndex raw t := by
  simp [channel, gammaAt]

theorem scaled_mono {raw raw' t t' : Byte} (hraw : raw.toNat ≤ raw'.toNat)
    (ht : t.toNat ≤ t'.toNat) : scaled raw t ≤ scaled raw' t' :=
  min_le_min_left _ (Nat.div_le_div_right (Nat.mul_le_mul hraw ht))

/-- Settles O14: each part is the same property of one channel, or of the index. -/
theorem resolveProperties : Obligations.ResolveProperties := by
  refine ⟨fun s g r gr b hg hbrt => ?_, fun s hg hbrt => ?_, fun raw raw' t t' hraw ht => ?_⟩
  · simp only [ledCommand, hg, hbrt, channel_dark]
    rfl
  · simp only [ledCommand, hg, hbrt, channel_identity]
    decide
  · rw [scaleIndex_toNat, scaleIndex_toNat]
    exact scaled_mono hraw ht

/-! ## The parts of a frame (R136) -/

theorem frameOf_append (p : Params) (s0 : Byte) (c d : List Byte) :
    frameOf p s0 (c ++ d) = frameOf p s0 c ++ frameOf p s0 d :=
  List.flatMap_append

theorem frameOf_singleton (p : Params) (s0 b : Byte) : frameOf p s0 [b] = image p s0 b :=
  List.flatMap_singleton ..

/-- Sixteen snapshots to a byte: a frame is cut where its command is. -/
theorem frameOf_drop (p : Params) (s0 : Byte) (c d : List Byte) :
    (frameOf p s0 (c ++ d)).drop (16 * c.length) = frameOf p s0 d := by
  rw [frameOf_append, List.drop_left' (frameOf_length ..)]

theorem frameOf_take (p : Params) (s0 : Byte) (c d : List Byte) :
    (frameOf p s0 (c ++ d)).take (16 * c.length) = frameOf p s0 c := by
  rw [frameOf_append, List.take_left' (frameOf_length ..)]

/-- The sixteen snapshots of one byte of a command. -/
theorem frameOf_byte (p : Params) (s0 : Byte) (c : List Byte) (x : Byte) (d : List Byte) :
    ((frameOf p s0 (c ++ x :: d)).drop (16 * c.length)).take 16 = image p s0 x := by
  rw [frameOf_drop, ← frameOf_singleton]
  exact frameOf_take p s0 [x] d

/-- The frame that a served request leaves, whatever the transport answers (R130). -/
theorem ledTurn_frame {s t : State} {ans : WriteAns} {r g b : Byte}
    (hne : s.params.clkBit ≠ s.params.datBit) (ht : (nextInput s).turn = .led ans)
    (hr : s.status = .running) (hm : s.mbox = .full r g b) (h : step s = .next t) :
    t.frame = frameOf s.params s.snap (build (channel s.gamma s.brt r) (channel s.gamma s.brt g)
      (channel s.gamma s.brt b)) := by
  rw [step_of_led ht, ledStep_serves (s := takeInput s) hne hr hm] at h
  cases h
  cases ans <;> rfl

theorem pinMask_default {p : Params} (hclk : p.clkBit = 6) (hdat : p.datBit = 7) :
    ~~~ pinMask p = 0x3F#8 := by
  rw [pinMask, hclk, hdat]
  decide

/-- At the default pins the other parameters play no part in a frame. -/
theorem frameOf_default {p : Params} (hclk : p.clkBit = 6) (hdat : p.datBit = 7) (s0 : Byte)
    (c : List Byte) : frameOf p s0 c = frameOf Config.params s0 c :=
  congrArg c.flatMap (funext (image_of_pins (q := Config.params) hclk hdat s0))

/-- Settles O17: the frame is that of the command from 0x00, cut at its bytes; the images of its
constant bytes are computed at the default pins. -/
theorem frameConstantPart : Obligations.FrameConstantPart := by
  intro s t ans r g b hclk hdat hsnap ht hr hm h
  have hne : s.params.clkBit ≠ s.params.datBit := by rw [hclk, hdat]; decide
  rw [ledTurn_frame hne ht hr hm h,
    frameOf_of_otherPins (by rw [pinMask_default hclk hdat, hsnap])]
  generalize channel s.gamma s.brt r = rf, channel s.gamma s.brt g = gf,
    channel s.gamma s.brt b = bf
  have hzero : frameOf s.params 0x00#8 [0x00#8, 0x00#8]
      = (List.replicate 16 [0x00#8, 0x40#8]).flatten := by
    rw [frameOf_default hclk hdat]
    decide
  have hmarker : image s.params 0x00#8 Config.marker
      = [0x80#8, 0xC0#8, 0x80#8, 0xC0#8, 0x80#8, 0xC0#8, 0x00#8, 0x40#8,
         0x80#8, 0xC0#8, 0x80#8, 0xC0#8, 0x80#8, 0xC0#8, 0x80#8, 0xC0#8] := by
    rw [← frameOf_singleton, frameOf_default hclk hdat]
    decide
  exact ⟨(frameOf_take _ _ [0x00#8, 0x00#8] _).trans hzero,
    (frameOf_byte _ _ [0x00#8, 0x00#8] _ _).trans hmarker,
    (frameOf_drop _ _ [0x00#8, 0x00#8, Config.marker, bf, gf, rf] _).trans hzero,
    frameOf_byte _ _ [0x00#8, 0x00#8, Config.marker] bf _,
    frameOf_byte _ _ [0x00#8, 0x00#8, Config.marker, bf] gf _,
    frameOf_byte _ _ [0x00#8, 0x00#8, Config.marker, bf, gf] rf _⟩

end Sys2Proof.Machine
end

section
/-! PROOF. What a step leaves alone, whoever takes it (10_state.md R27, R30 to R36, R43): one frame
lemma for operations and one for each agent's turn, and the claims that are case analyses of them.
-/

namespace Sys2Proof.Machine

open Sys2Proof.Safety

/-! ## Operations -/

theorem effect_keeps_status {s t : State} {i : Instr} (h : Effect s i t) : t.status = s.status := by
  obtain ⟨-, -, -, hstatus⟩ := effect_frame h
  exact hstatus

theorem effect_keeps_interval {s t : State} {i : Instr} (h : Effect s i t) :
    t.pollInterval = s.pollInterval := by
  cases h with
  | sample v => simp
  | _ => rfl

/-- The program is the host's input: it is read and never written (10_state.md R27). -/
theorem effect_keeps_program {s t : State} {i : Instr} (h : Effect s i t) :
    t.program = s.program := by
  cases h with
  | sample v => simp
  | _ => rfl

/-- An operation that does not hold completes: one result, and the index moves by 1. -/
theorem effect_completes {s t : State} {i : Instr} (h : Effect s i t) :
    t = s ∨ t.pi = s.pi + 1 ∧ ∃ r, t.results = s.results ++ [r] := by
  cases h with
  | holds => exact .inl rfl
  | sample v => exact .inr ⟨by simp, .ok, by simp⟩
  | _ => exact .inr ⟨rfl, _, rfl⟩

/-- Outside RUNNING an operation is refused. -/
theorem effect_of_not_running {s t : State} {i : Instr} (h : Effect s i t)
    (hr : s.status ≠ .running) : ∃ e, t = complete s (.err e) := by
  cases h with
  | refused i e => exact ⟨e, rfl⟩
  | _ => contradiction

/-- Settles O42: of the operations only ENCB and SAMPLE write one of these, and they ask for BENCH.
-/
theorem hostCannotWriteInternals : Obligations.HostCannotWriteInternals := by
  intro i s t hb h
  cases exec_next h with
  | encb b hr hbench | sample v hr hbench => rw [hb] at hbench; cases hbench
  | _ => exact ⟨rfl, rfl, rfl, rfl, rfl, rfl, rfl, rfl, rfl⟩

/-- Settles O5: a host turn is the decoded operation in the state with the input taken. -/
theorem stepRunsTheDecodedOperation : Obligations.StepRunsTheDecodedOperation :=
  fun _ _ _ ht hw hd => step_of_decode ht hw hd

/-- Settles O49: `move_keeps_params` at the step. -/
theorem parametersNeverChange : Obligations.ParametersNeverChange :=
  fun _ _ h => move_keeps_params (step_next h)

/-! ## The agents -/

/-- LEDSTEP writes the colour path, the encoder, STATUS, CAUSE and the transport's log
(10_state.md R43). -/
theorem ledStep_frame (ans : WriteAns) (s : State) :
    ledStep ans s = { s with
      status := (ledStep ans s).status, cause := (ledStep ans s).cause
      snap := (ledStep ans s).snap, frame := (ledStep ans s).frame
      mbox := (ledStep ans s).mbox, xfers := (ledStep ans s).xfers } := by
  by_cases hr : s.status = .running
  · cases hm : s.mbox with
    | empty => rw [ledStep_disabled (.inr hm)]
    | full r g b =>
      obtain ⟨w, -, -, hw, hs⟩ := ledStep_enabled hr hm ans
      rw [hs, hw]
      cases ans <;> rfl
  · rw [ledStep_disabled (.inl hr)]

/-- POLLSTEP writes the detector, STATUS, CAUSE and the transport's log (10_state.md R43). -/
theorem pollStep_frame (ans : ReadAns) (s : State) :
    pollStep ans s = { s with
      status := (pollStep ans s).status, cause := (pollStep ans s).cause
      pressed := (pollStep ans s).pressed, t0 := (pollStep ans s).t0, ep := (pollStep ans s).ep
      lastPoll := (pollStep ans s).lastPoll, xfers := (pollStep ans s).xfers } := by
  by_cases hr : s.status = .running
  · cases ans with
    | ok v => rw [pollStep_ok hr, eval_frame]
    | fail => rw [pollStep_fail hr]
  · rw [pollStep_disabled hr]

/-- Settles O43: each agent's step, read off its frame. -/
theorem agentsShareNoState : Obligations.AgentsShareNoState := by
  refine fun s t h => ⟨fun ⟨ans, ht⟩ => ?led, fun ⟨ans, ht⟩ => ?poll⟩
  case led =>
    rw [step_of_led ht] at h
    cases h
    rw [ledStep_frame]
    exact ⟨rfl, rfl, rfl, rfl, rfl, rfl, rfl, rfl, rfl, rfl, rfl, rfl, rfl⟩
  case poll =>
    rw [step_of_poll ht] at h
    cases h
    rw [pollStep_frame]
    exact ⟨rfl, rfl, rfl, rfl, rfl, rfl, rfl, rfl, rfl, rfl, rfl, rfl⟩

/-- Settles O16: a step that is not enabled is the identity, after the input has been taken. -/
theorem disabledAgentsDoNothing : Obligations.DisabledAgentsDoNothing := by
  refine fun s ans rd => ⟨fun ht hoff => ?_, fun ht hr => ?_⟩
  · rw [step_of_led ht, ledStep_disabled (s := takeInput s) hoff]
  · rw [step_of_poll ht, pollStep_disabled (s := takeInput s) hr]

/-- A setup error is fault entry and the return to boot's caller, whose fields are known
(60_exceptions.md R203). -/
@[simp] theorem setupError_eq (index : Fin 3) (s : State) :
    setupError index s
      = bootReturn (.failed (.setupError index)) (faultEntry (.setup index) s) := rfl

/-! ## The program and its index (R27) -/

theorem move_keeps_program {s t : State} (h : Move s (takeInput s) t) : t.program = s.program := by
  cases h with
  | hostOp cw i _ ht hw hd he => exact effect_keeps_program (s := takeInput s) he
  | pollOk v => simp
  | init0 | init1 | init2 | initDone => simp
  | _ => rfl

/-- Settles O47: the host's turn completes at most one operation, and no other turn completes one.
-/
theorem indexAdvancesWithResults : Obligations.IndexAdvancesWithResults := by
  intro s t h hn
  have hmove := step_next h
  refine ⟨move_keeps_program hmove, ?_⟩
  have inside : ∀ {cw}, s.program[s.pi]? = some cw → s.pi < s.program.length :=
    fun hw => (List.getElem?_eq_some_iff.mp hw).1
  cases hmove with
  | hostIllegal cw e ht hw => exact .inr ⟨ht, rfl, inside hw, _, rfl⟩
  | hostOp cw i _ ht hw hd he =>
    rcases effect_completes he with rfl | ⟨hpi, hres⟩
    · exact .inl ⟨rfl, rfl⟩
    · exact .inr ⟨ht, hpi, inside hw, hres⟩
  | pollOk v => exact .inl (by simp)
  | init0 | init1 | init2 | initDone => exact .inl (by simp)
  | reset ht => exact absurd ht hn
  | _ => exact .inl ⟨rfl, rfl⟩

/-! ## STATUS, GAMMA and POLL_INTERVAL (R33, R34, R36) -/

/-- Settles O32: operations keep STATUS; CONFIGURE, INIT, a failed transaction and reset move it. -/
theorem statusFollowsItsPath : Obligations.StatusFollowsItsPath := by
  intro s t h
  cases step_next h with
  | hostOp cw i _ ht hw hd he => exact .inl (effect_keeps_status (s := takeInput s) he)
  | ledFail r g b snap f ht hr => exact .inr (.inr (.inr (.inl ⟨hr, rfl, .inl ht⟩)))
  | pollOk v => exact .inl (by simp)
  | pollFail ht hr => exact .inr (.inr (.inr (.inl ⟨hr, rfl, .inr ht⟩)))
  | configured g p table ht hr => exact .inr (.inl ⟨hr, rfl, g, p, ht⟩)
  | init0 a1 a2 ht hr => exact .inr (.inr (.inl ⟨hr, .inr rfl, _, _, _, ht⟩))
  | init1 a2 ht hr => exact .inr (.inr (.inl ⟨hr, .inr rfl, _, _, _, ht⟩))
  | init2 ht hr => exact .inr (.inr (.inl ⟨hr, .inr rfl, _, _, _, ht⟩))
  | initDone ht hr => exact .inr (.inr (.inl ⟨hr, .inl rfl, _, _, _, ht⟩))
  | reset ht => exact .inr (.inr (.inr (.inr ⟨rfl, ht⟩)))
  | _ => exact .inl rfl

/-- Once CONFIGURE has run, only reset writes POLL_INTERVAL. -/
theorem move_keeps_interval {s t : State} (h : Move s (takeInput s) t) (hs : s.status ≠ .reset)
    (hn : (nextInput s).turn ≠ .reset) : t.pollInterval = s.pollInterval := by
  cases h with
  | hostOp cw i _ ht hw hd he => exact effect_keeps_interval (s := takeInput s) he
  | pollOk v => simp
  | init0 | init1 | init2 | initDone => simp
  | configured _ _ _ _ hr => exact absurd hr hs
  | reset ht => exact absurd ht hn
  | _ => rfl

/-- Settles O45: `move_keeps_gamma` and `move_keeps_interval` at the step. -/
theorem tableIsImmutable : Obligations.TableIsImmutable := by
  intro s t h hs hn
  have hmove := step_next h
  exact ⟨(move_keeps_gamma hmove hs hn).1, move_keeps_interval hmove hs hn⟩

/-! ## Before RUNNING (70_reset_and_hazards.md R241, R248) -/

/-- Settles O37: before RUNNING an operation is refused, CONFIGURE writes only what is excepted, and
every other step that touches a register starts or ends outside RESET and CONFIGURED. -/
theorem nothingMovesBeforeRunning : Obligations.NothingMovesBeforeRunning := by
  refine ⟨fun _ => ⟨rfl, rfl, rfl, rfl, rfl, rfl, rfl, rfl, rfl, rfl, rfl⟩,
    fun s t hs h hbefore => ?_⟩
  have hoff : t.status ≠ .running ∧ t.status ≠ .faulted ∧ t.status ≠ .setupFailed := by
    rcases hbefore with h | h <;> simp [h]
  obtain ⟨notRunning, notFaulted, notFailed⟩ := hoff
  cases step_next h with
  | hostIdle | hostIllegal | agentIdle | configureRefused => exact hs hbefore
  | hostOp cw i _ ht hw hd he =>
    have hst : t.status = s.status := effect_keeps_status (s := takeInput s) he
    obtain ⟨e, rfl⟩ := effect_of_not_running he (hst ▸ notRunning)
    exact hs hbefore
  | ledOk r g b snap f ht hr => exact absurd hr notRunning
  | pollOk v ht hr => exact absurd hr (by simpa using notRunning)
  | ledFail | pollFail => exact absurd rfl notFaulted
  | configured g p table ht hr => exact hs (.inl hr)
  | init0 | init1 | init2 => exact absurd rfl notFailed
  | initDone => exact absurd rfl notRunning
  | reset => exact ⟨rfl, rfl, rfl, rfl, rfl, rfl, rfl, rfl, rfl, rfl, rfl⟩

/-! ## MBOX (20_memory.md R74) -/

/-- An operation leaves a FULL mailbox alone, and fills an EMPTY one only as a completed request. -/
theorem effect_mbox {s t : State} {i : Instr} (h : Effect s i t) :
    t.mbox = s.mbox ∨ s.mbox = .empty ∧ t.results = s.results ++ [.ok] ∧
      ∃ c, requestOf i = some c ∧ t.mbox = .full c.r c.g c.b := by
  cases h with
  | setcolor r g b hr hm | halt hr hm => exact .inr ⟨hm, rfl, _, rfl, rfl⟩
  | sample v => exact .inl (by simp)
  | _ => exact .inl rfl

theorem requestOf_eq_some {i : Instr} {c : Colour} (h : requestOf i = some c) :
    i = .setcolor c.r c.g c.b ∨ i = .halt ∧ c.r = 0#8 ∧ c.g = 0#8 ∧ c.b = 0#8 := by
  cases i with
  | setcolor r g b => cases h; exact .inl rfl
  | halt => cases h; exact .inr ⟨rfl, rfl, rfl, rfl⟩
  | _ => cases h

/-- What a step other than reset does to MBOX: nothing, a completed request into an EMPTY one, or
the LED agent takes what is there. -/
theorem move_mbox {s t : State} (h : Move s (takeInput s) t) (hn : (nextInput s).turn ≠ .reset) :
    t.mbox = s.mbox
    ∨ (s.mbox = .empty ∧ t.results = s.results ++ [.ok] ∧
      ∃ i c, hostRuns s i ∧ requestOf i = some c ∧ t.mbox = .full c.r c.g c.b)
    ∨ (t.mbox = .empty ∧ ∃ ans, (nextInput s).turn = .led ans) := by
  cases h with
  | hostOp cw i _ ht hw hd he =>
    rcases effect_mbox he with hm | ⟨hm, hres, c, hi, hfull⟩
    · exact .inl hm
    · exact .inr (.inl ⟨hm, hres, i, c, ⟨ht, cw, hw, hd⟩, hi, hfull⟩)
  | ledOk _ _ _ _ _ ht | ledFail _ _ _ _ _ ht => exact .inr (.inr ⟨rfl, _, ht⟩)
  | pollOk v => exact .inl (by simp)
  | init0 | init1 | init2 | initDone => exact .inl (by simp)
  | reset ht => exact absurd ht hn
  | _ => exact .inl rfl

/-- Settles O18: a FULL mailbox rules out the second case of `move_mbox`, a filled one the first,
and the third is the LED agent's. -/
theorem noRequestIsLost : Obligations.NoRequestIsLost := by
  intro s t h hled hn
  rcases move_mbox (step_next h) hn with
    hm | ⟨hm, hres, i, c, ⟨-, cw, hw, hd⟩, hi, hfull⟩ | ⟨-, ans, ht⟩
  · exact ⟨fun _ => hm, fun hempty hfull => absurd (hm.trans hempty) hfull⟩
  · refine ⟨fun hfull => absurd hm hfull, fun _ _ => ⟨cw, c.r, c.g, c.b, hw, ?_, hfull, hres⟩⟩
    rcases requestOf_eq_some hi with rfl | ⟨rfl, hblack⟩
    · exact .inl hd
    · exact .inr ⟨hd, hblack⟩
  · exact absurd ht (hled ans)

/-! ## Boot (70_reset_and_hazards.md R244, R246, R247) -/

theorem step_of_configure {s : State} {g : Option (List Byte)} {p : Option Time}
    (ht : (nextInput s).turn = .configure g p) : step s = configure g p (takeInput s) := by
  simp [step, ht, takeTurn]

theorem step_of_init {s : State} {a0 a1 a2 : WriteAns} (ht : (nextInput s).turn = .init a0 a1 a2) :
    step s = initBlock a0 a1 a2 (takeInput s) := by
  simp [step, ht, takeTurn]

/-- Settles O35: the cases of CONFIGURE, in RESET by the length of the table. -/
theorem configureInstallsOrRefuses : Obligations.ConfigureInstallsOrRefuses := by
  intro s g p ht
  rw [step_of_configure ht]
  refine ⟨fun hr => if_neg hr, fun l hr hg hl => ?_, fun l hr hg hl => ?_, fun hr hg => ?_⟩
  · subst hg
    exact (if_pos hr).trans (dif_neg hl)
  · subst hg
    exact ⟨⟨l.toArray, hl⟩, rfl, (if_pos hr).trans (dif_pos hl)⟩
  · subst hg
    exact if_pos hr

/-- Settles O36: INIT in CONFIGURED is its three writes, by their answers. -/
theorem initWritesInOrder : Obligations.InitWritesInOrder := by
  intro s a0 a1 a2 ht hr
  have hinit : step s = .next (setupWrites a0 a1 a2 (takeInput s)) :=
    (step_of_init ht).trans (if_pos hr)
  rw [hinit]
  refine ⟨?_, ?_, ?_, ?_⟩
  · rintro rfl
    rfl
  · rintro rfl rfl
    rw [List.append_cons s.xfers]
    rfl
  · rintro rfl rfl rfl
    rw [List.append_cons s.xfers, List.append_cons (s.xfers ++ _)]
    rfl
  · rintro rfl rfl rfl
    rw [List.append_cons s.xfers, List.append_cons (s.xfers ++ _)]
    rfl

end Sys2Proof.Machine
end

section
/-! PROOF. The detector: the bits of a sample that count (41_detector.md R176), a press and a
release in sequence (R178), and the registry that only grows (10_state.md R30 to R32). -/

namespace Sys2Proof.Machine

open Sys2Proof.Safety

/-! ## The bits of a sample (R176) -/

theorem evalBtn_of_bits {v v' : Byte} (h : ∀ b : Button, v.getLsbD b = v'.getLsbD b) (now : Time) :
    evalBtn v now = evalBtn v' now := by
  funext s b
  unfold evalBtn sampleBit
  rw [h b]

/-- EVAL reads the five low bits of its sample. -/
theorem eval_of_bits {v v' : Byte} (h : ∀ b : Button, v.getLsbD b = v'.getLsbD b) (now : Time)
    (s : State) : eval v now s = eval v' now s := by
  unfold eval
  rw [evalBtn_of_bits h]

theorem sameBlock_refl (s : State) : sameBlock s s := by
  simp [sameBlock]

/-- Settles O24: SAMPLE and POLLSTEP use their sample in `eval` alone. -/
theorem upperSampleBitsIgnored : Obligations.UpperSampleBitsIgnored := by
  intro v v' s h
  refine ⟨fun hb => ?sample, ?poll⟩
  case sample =>
    simp only [exec, execSample, whenBench_of_bench hb, eval_of_bits h]
  case poll =>
    by_cases hr : s.status = .running
    · rw [pollStep_ok hr, pollStep_ok hr, eval_of_bits h]
      exact sameBlock_refl (eval v' s.now s)
    · rw [pollStep_disabled hr, pollStep_disabled hr]
      exact sameBlock_refl s

/-! ## A press, then a release (R178) -/

theorem inv_epCap_pos {s : State} (hi : Inv s) : 0 < s.params.epCap := by
  have h := hi.admissible
  rw [Params.admissible, Bool.and_eq_true] at h
  exact of_decide_eq_true h.2

/-- SAMPLE at time `now` in RUNNING, as far as the detector is concerned. -/
structure Sampled (v : Byte) (now : Time) (s t : State) : Prop where
  inv : Inv t
  params : t.params = s.params
  status : t.status = s.status
  pressed : ∀ b : Button, t.pressed[b] = v.getLsbD b
  t0 : ∀ b : Button, t.t0[b] = t0After s v now b
  ep : ∀ i : Nat, t.ep[i]? = (s.ep[i]?).map (afterEdge s v now)

theorem exec_sample_sampled {s : State} (hi : Inv s) (hb : s.params.bench = true)
    (hr : s.status = .running) (v : Byte) (now : Time) :
    ∃ t, exec (.sample v) { s with now := now } = .next t ∧ Sampled v now s t := by
  have hi' : Inv { s with now := now } := inv_of_sameBlock hi (sameBlock_refl s) rfl
  obtain ⟨hpressed, ht0, hep, -⟩ := eval_spec v now (wired_of_inv hi')
  refine ⟨_, exec_sample (s := { s with now := now }) hb hr v, ?_⟩
  exact ⟨inv_complete (inv_eval hi' v now) _, by simp, by simp, hpressed, ht0, hep⟩

/-- An endpoint whose button has no edge of its kind keeps its queue. -/
theorem Sampled.ep_of_none {v : Byte} {now : Time} {s t : State} {i : Nat} {x : Endpoint}
    (h : Sampled v now s t) (hx : s.ep[i]? = some x)
    (ho : offered s v now x.kind x.btn = none) : t.ep[i]? = some x := by
  rw [h.ep, hx, Option.map_some, afterEdge_of_none ho]

/-- An empty queue has room for what its endpoint is offered. -/
theorem Sampled.ep_of_some {v : Byte} {now : Time} {s t : State} {i : Nat} {k : Kind} {b : Button}
    {p : Payload} (h : Sampled v now s t) (hx : s.ep[i]? = some ⟨k, b, []⟩)
    (ho : offered s v now k b = some p) : t.ep[i]? = some ⟨k, b, [p]⟩ := by
  have hcap : 0 < s.params.epCap := h.params ▸ inv_epCap_pos h.inv
  rw [h.ep, hx, Option.map_some, afterEdge_of_some ho]
  simp [afterOffer, hcap]

theorem offered_press_of_edge {s : State} {v : Byte} {b : Button} (now : Time)
    (hv : v.getLsbD b = true) (hp : s.pressed[b] = false) :
    offered s v now .press b = some .unit := by
  simp [offered, pressEdge, hv, hp]

theorem offered_press_of_low {s : State} {v : Byte} {b : Button} (now : Time)
    (hv : v.getLsbD b = false) : offered s v now .press b = none := by
  simp [offered, pressEdge, hv]

theorem offered_release_of_edge {s : State} {v : Byte} {b : Button} {t : Time} (now : Time)
    (hv : v.getLsbD b = false) (hp : s.pressed[b] = true) (ht : s.t0[b] = some t) :
    offered s v now .release b = some (.duration (now - t)) := by
  simp [offered, releaseEdge, hv, hp, ht]

theorem offered_release_of_high {s : State} {v : Byte} {b : Button} (now : Time)
    (hv : v.getLsbD b = true) : offered s v now .release b = none := by
  simp [offered, releaseEdge, hv]

theorem offered_release_of_not_pressed {s : State} {v : Byte} {b : Button} (now : Time)
    (hp : s.pressed[b] = false) : offered s v now .release b = none := by
  simp [offered, releaseEdge, hp]

theorem zero_bit (b : Button) : (0x00#8).getLsbD b = false := BitVec.getLsbD_zero

theorem button_bit (b : Button) : (1#8 <<< b.val).getLsbD b = true := by
  revert b
  decide

/-- The duration lies between one interval and two exactly when the clock spaces the cycles so. -/
theorem duration_spaced {t2 t3 : Time} (h : notBefore t2 t3) (interval : Time) :
    (interval.toNat ≤ (t3 - t2).toNat ∧ (t3 - t2).toNat < 2 * interval.toNat)
      ↔ (spaced interval t2 t3 ∧ t3.toNat < t2.toNat + 2 * interval.toNat) := by
  have hle : t2.toNat ≤ t3.toNat := h
  have hsub : (t3 - t2).toNat = t3.toNat - t2.toNat := BitVec.toNat_sub_of_le hle
  rw [hsub, spaced]
  omega

/-- Settles O25: the first sample finds no edge of button b, the second its press edge, the third
its release edge, with the time of the second in T0. -/
theorem pressThenReleaseSequence : Obligations.PressThenReleaseSequence := by
  intro s b p r t1 t2 t3 interval hi hb hr hp _ _ hepP hepR _ hle
  obtain ⟨s1, h1, e1⟩ := exec_sample_sampled hi hb hr 0x00#8 t1
  have hp1 : s1.pressed[b] = false := (e1.pressed b).trans (zero_bit b)
  have epP1 := e1.ep_of_none hepP (offered_press_of_low t1 (zero_bit b))
  have epR1 := e1.ep_of_none hepR (offered_release_of_not_pressed t1 hp)
  have hb1 : s1.params.bench = true := e1.params ▸ hb
  have hr1 : s1.status = .running := e1.status.trans hr
  obtain ⟨s2, h2, e2⟩ := exec_sample_sampled e1.inv hb1 hr1 (1#8 <<< b.val) t2
  have hp2 : s2.pressed[b] = true := (e2.pressed b).trans (button_bit b)
  have ht2 : s2.t0[b] = some t2 := by
    rw [e2.t0, t0After, pressEdge, button_bit, hp1]
    rfl
  have epP2 := e2.ep_of_some epP1 (offered_press_of_edge t2 (button_bit b) hp1)
  have epR2 := e2.ep_of_none epR1 (offered_release_of_high t2 (button_bit b))
  have hb2 : s2.params.bench = true := e2.params ▸ hb1
  have hr2 : s2.status = .running := e2.status.trans hr1
  obtain ⟨s3, h3, e3⟩ := exec_sample_sampled e2.inv hb2 hr2 0x00#8 t3
  have epP3 := e3.ep_of_none epP2 (offered_press_of_low t3 (zero_bit b))
  have epR3 := e3.ep_of_some epR2 (offered_release_of_edge t3 (zero_bit b) hp2 ht2)
  exact ⟨s1, s2, s3, h1, h2, h3, epP2, epR2, epP3, epR3, duration_spaced hle interval⟩

/-! ## The registry (10_state.md R30 to R32) -/

/-- Every endpoint of the first file is in the second, with its kind and button. -/
def FileKept (l l' : List Endpoint) : Prop :=
  ∀ (i : Nat) (x : Endpoint), l[i]? = some x →
    ∃ y, l'[i]? = some y ∧ y.kind = x.kind ∧ y.btn = x.btn

theorem fileKept_refl (l : List Endpoint) : FileKept l l := fun _ x hx => ⟨x, hx, rfl, rfl⟩

theorem FileKept.trans {l l' l'' : List Endpoint} (h : FileKept l l') (h' : FileKept l' l'') :
    FileKept l l'' := by
  intro i x hx
  obtain ⟨y, hy, hk, hb⟩ := h i x hx
  obtain ⟨z, hz, hk', hb'⟩ := h' i y hy
  exact ⟨z, hz, hk'.trans hk, hb'.trans hb⟩

theorem fileKept_append (l l' : List Endpoint) : FileKept l (l ++ l') := by
  intro i x hx
  have hi : i < l.length := (List.getElem?_eq_some_iff.mp hx).1
  exact ⟨x, (List.getElem?_append_left hi).trans hx, rfl, rfl⟩

theorem fileKept_set {l : List Endpoint} {e : Nat} {x : Endpoint} (hx : l[e]? = some x)
    (q : List Payload) : FileKept l (l.set e { x with q := q }) := by
  intro i y hy
  by_cases hi : e = i
  · subst hi
    cases hx.symm.trans hy
    exact ⟨_, List.getElem?_set_self (List.getElem?_eq_some_iff.mp hx).1, rfl, rfl⟩
  · exact ⟨y, (List.getElem?_set_ne hi).trans hy, rfl, rfl⟩

theorem trySend_keeps (cap : Nat) (p : Payload) (l : List Endpoint) (e : Nat) :
    FileKept l (trySend cap p l e) := by
  unfold trySend
  cases hx : l[e]? with
  | none => exact fileKept_refl l
  | some x =>
    dsimp only
    split
    · exact fileKept_refl l
    · exact fileKept_set hx _

theorem deliver_keeps (cap : Nat) (p : Payload) (ids : List Nat) (l : List Endpoint) :
    FileKept l (deliver cap p ids l) := by
  unfold deliver
  induction ids generalizing l with
  | nil => exact fileKept_refl l
  | cons e ids ih => exact (trySend_keeps cap p l e).trans (ih _)

theorem evalBtn_keeps_file (v : Byte) (now : Time) (s : State) (b : Button) :
    FileKept s.ep (evalBtn v now s b).ep := by
  unfold evalBtn
  split
  · exact deliver_keeps _ _ _ _
  · exact deliver_keeps _ _ _ _
  · exact fileKept_refl _
  · exact fileKept_refl _

/-- Delivery only changes queues, so a poll cycle keeps the file. -/
theorem eval_keeps_file (v : Byte) (now : Time) (s : State) : FileKept s.ep (eval v now s).ep := by
  have all : ∀ (l : List Button) (s : State), FileKept s.ep (l.foldl (evalBtn v now) s).ep := by
    intro l
    induction l with
    | nil => exact fun s => fileKept_refl _
    | cons b l ih => exact fun s => (evalBtn_keeps_file v now s b).trans (ih _)
  exact all buttons s

/-- The registry has only grown. -/
structure Grows (s t : State) : Prop where
  psub : ∀ b : Button, s.psub[b] <+: t.psub[b]
  rsub : ∀ b : Button, s.rsub[b] <+: t.rsub[b]
  nextEp : s.nextEp ≤ t.nextEp
  file : FileKept s.ep t.ep

theorem grows_of_file {s t : State} (hp : t.psub = s.psub) (hr : t.rsub = s.rsub)
    (hn : t.nextEp = s.nextEp) (hf : FileKept s.ep t.ep) : Grows s t := by
  refine ⟨fun b => ?_, fun b => ?_, hn.ge, hf⟩
  · rw [hp]
  · rw [hr]

theorem grows_of_same {s t : State} (hp : t.psub = s.psub) (hr : t.rsub = s.rsub)
    (hn : t.nextEp = s.nextEp) (he : t.ep = s.ep) : Grows s t :=
  grows_of_file hp hr hn (he ▸ fileKept_refl s.ep)

/-- An id added at the end of one sequence: that one has grown, the others are as they were. -/
theorem sequence_grows (v : Vector (List Nat) 5) (b : Button) (id : Nat) (c : Button) :
    v[c] <+: (v.set b (v[b] ++ [id]))[c] := by
  by_cases h : c = b
  · subst h
    simp
  · have : b.val ≠ c.val := fun h' => h (Fin.ext h'.symm)
    simp [this]

theorem effect_grows {s t : State} {i : Instr} (h : Effect s i t) : Grows s t := by
  cases h with
  | subp n b =>
    exact ⟨sequence_grows s.psub b s.nextEp, fun _ => List.prefix_rfl, Nat.le_succ _,
      fileKept_append _ _⟩
  | subr n b =>
    exact ⟨fun _ => List.prefix_rfl, sequence_grows s.rsub b s.nextEp, Nat.le_succ _,
      fileKept_append _ _⟩
  | recv e x p rest r hr hx => exact grows_of_file rfl rfl rfl (fileKept_set hx rest)
  | sample v =>
    exact grows_of_file (eval_keeps_psub ..) (eval_keeps_rsub ..) (eval_keeps_nextEp ..)
      (eval_keeps_file v _ _)
  | _ => exact grows_of_same rfl rfl rfl rfl

theorem move_grows {s t : State} (h : Move s (takeInput s) t) (hn : (nextInput s).turn ≠ .reset) :
    Grows s t := by
  cases h with
  | hostOp cw i _ ht hw hd he =>
    obtain ⟨hpsub, hrsub, hnext, hfile⟩ := effect_grows he
    exact ⟨hpsub, hrsub, hnext, hfile⟩
  | pollOk v =>
    exact grows_of_file (eval_keeps_psub ..) (eval_keeps_rsub ..) (eval_keeps_nextEp ..)
      (eval_keeps_file v _ (takeInput s))
  | init0 | init1 | init2 | initDone =>
    exact grows_of_same (by simp) (by simp) (by simp) (by simp)
  | reset ht => exact absurd ht hn
  | _ => exact grows_of_same rfl rfl rfl rfl

/-- Settles O46: `move_grows` at the step. -/
theorem registryOnlyGrows : Obligations.RegistryOnlyGrows := by
  intro s t h hn
  obtain ⟨hpsub, hrsub, hnext, hfile⟩ := move_grows (step_next h) hn
  exact ⟨fun b => ⟨hpsub b, hrsub b⟩, hnext, hfile⟩

end Sys2Proof.Machine
end

section
/-! PROOF. Every operation answers (30_encoding.md R101), the two holds (60_exceptions.md R232), and
what a held operation sees of a fault (R215). -/

namespace Sys2Proof.Machine

open Sys2Proof.Safety

/-! ## Answers -/

/-- The outcome is a next state. -/
def Answers (o : Host.Outcome State Fault Refusal) : Prop := ∃ t, o = .next t

theorem answers_next (t : State) : Answers (.next t) := ⟨t, rfl⟩

theorem answers_whenRunning {s : State} {k : Host.Outcome State Fault Refusal}
    (hk : s.status = .running → Answers k) : Answers (whenRunning s k) := by
  by_cases hr : s.status = .running
  · rw [whenRunning_of_running hr]
    exact hk hr
  · rw [whenRunning_of_not hr]
    exact answers_next _

theorem answers_whenBench {s : State} {cw : Word} {k : Host.Outcome State Fault Refusal}
    (hk : Answers k) : Answers (whenBench cw s k) := by
  cases hb : s.params.bench with
  | false => rw [whenBench_of_not hb]; exact answers_next _
  | true => rw [whenBench_of_bench hb]; exact hk

theorem answers_deposit (r g b : Byte) (s : State) : Answers (deposit r g b s) := by
  cases hm : s.mbox with
  | empty => rw [deposit_of_empty hm]; exact answers_next _
  | full => rw [deposit_of_full hm]; exact answers_next _

theorem answers_subscribe (k : Kind) (b : Button) (append : State → State) (s : State) :
    Answers (subscribe k b append s) := by
  refine answers_whenRunning fun _ => ?_
  split <;> exact answers_next _

/-- A payload of its endpoint's kind can be answered (10_state.md R31). -/
theorem answers_payload {k : Kind} {p : Payload} (h : fits k p = true) (e : EpId) (s : State) :
    Answers (answerPayload e k p s) := by
  cases k with
  | press => exact answers_next _
  | release =>
    cases p with
    | unit => cases h
    | duration d => exact answers_next _

/-- Under the invariant an id below NEXT_EP is in the endpoint file (10_state.md R31). -/
theorem inv_endpoint {s : State} (hi : Inv s) {e : Nat} (he : e < s.nextEp) :
    ∃ x, s.ep[e]? = some x :=
  ⟨_, List.getElem?_eq_getElem (hi.nextEp ▸ he)⟩

theorem answers_recv {s : State} (hi : Inv s) (e : EpId) : Answers (exec (.recv e) s) := by
  by_cases hr : s.status = .running
  · by_cases he : e.toNat < s.nextEp
    · obtain ⟨x, hx⟩ := inv_endpoint hi he
      cases hq : x.q with
      | nil => exact ⟨_, exec_recv_of_empty hr he hx hq⟩
      | cons p rest =>
        rw [exec_recv_of_cons hr he hx hq]
        refine answers_payload (hi.payloads x (List.mem_of_getElem? hx) p ?_) e _
        rw [hq]
        exact List.mem_cons_self
    · exact ⟨_, exec_recv_of_unknown hr (Nat.not_lt.mp he)⟩
  · exact ⟨_, whenRunning_of_not hr _⟩

/-- Settles O29: no arm but RECV's can stop, and RECV stops in no state of the invariant. -/
theorem everyOperationAnswers : Obligations.EveryOperationAnswers := by
  intro i s hi
  cases i with
  | setcolor | halt => exact answers_whenRunning fun _ => answers_deposit _ _ _ s
  | setbrt l => exact answers_whenRunning fun _ => answers_next _
  | subp n =>
    change Answers (execSubp n s)
    unfold execSubp
    split
    · exact answers_next _
    · exact answers_subscribe ..
  | subr n =>
    change Answers (execSubr n s)
    unfold execSubr
    split
    · exact answers_next _
    · exact answers_subscribe ..
  | recv e => exact answers_recv hi e
  | encb | sample => exact answers_whenBench (answers_whenRunning fun _ => answers_next _)

theorem answers_hostTurn {s : State} (hi : Inv s) : Answers (hostTurn s) := by
  unfold hostTurn
  split
  · exact answers_next _
  · split
    · exact everyOperationAnswers _ s hi
    · exact answers_next _

theorem answers_configure {s : State} (hr : s.status = .reset) (g : Option (List Byte))
    (p : Option Time) : Answers (configure g p s) := by
  unfold configure
  rw [if_pos hr]
  cases g with
  | none => exact answers_next _
  | some l =>
    dsimp only
    split <;> exact answers_next _

/-- Settles O41: the host's turn answers, the agents' and reset always do, and boot is refused by
the check of STATUS alone. -/
theorem stepNeverFaults : Obligations.StepNeverFaults := by
  intro s hi
  cases ht : (nextInput s).turn with
  | host =>
    rw [step_of_host ht]
    exact .inl (answers_hostTurn (inv_takeInput hi))
  | led ans => exact .inl ⟨_, step_of_led ht⟩
  | poll ans => exact .inl ⟨_, step_of_poll ht⟩
  | configure g p =>
    rw [step_of_configure ht]
    by_cases hr : s.status = .reset
    · exact .inl (answers_configure (s := takeInput s) hr g p)
    · exact .inr (.inl ⟨if_neg hr, hr, g, p, rfl⟩)
  | init a0 a1 a2 =>
    rw [step_of_init ht]
    by_cases hr : s.status = .configured
    · exact .inl ⟨_, if_pos hr⟩
    · exact .inr (.inr ⟨if_neg hr, hr, a0, a1, a2, rfl⟩)
  | reset => exact .inl ⟨_, step_of_reset ht⟩

/-! ## Holds (R232) -/

/-- A completed operation has moved the program index, so it has not held. -/
theorem complete_ne {s t : State} {r : Result} (hpi : t.pi = s.pi) :
    (.next (complete t r) : Host.Outcome State Fault Refusal) ≠ .next s := by
  intro h
  have hstuck : t.pi + 1 = s.pi := congrArg State.pi (Host.Outcome.next.inj h)
  omega

theorem answerPayload_ne {s t : State} (hpi : t.pi = s.pi) (e : EpId) (k : Kind) (p : Payload) :
    answerPayload e k p t ≠ .next s := by
  cases k with
  | press => exact complete_ne hpi
  | release =>
    cases p with
    | unit => nofun
    | duration d => exact complete_ne hpi

/-- A hold passes both checks of R212. -/
theorem checks_of_hold {i : Instr} {s : State} (h : exec i s = .next s) :
    i.accepted s.params.bench = true ∧ s.status = .running := by
  have ha : i.accepted s.params.bench = true := by
    by_contra hna
    rw [illegalComesFirst i s (Bool.eq_false_iff.mpr hna)] at h
    exact absurd h (complete_ne rfl)
  refine ⟨ha, ?_⟩
  by_contra hr
  rw [exec_of_not_running ha hr] at h
  exact absurd h (complete_ne rfl)

/-- A colour request in RUNNING holds only on a FULL mailbox. -/
theorem full_of_request_hold {s : State} {r g b : Byte} (hr : s.status = .running)
    (h : whenRunning s (deposit r g b s) = .next s) : s.mbox ≠ .empty := by
  intro hm
  rw [whenRunning_of_running hr, deposit_of_empty hm] at h
  exact absurd h (complete_ne rfl)

/-- A subscription in RUNNING never holds. -/
theorem subscribe_ne {s : State} {k : Kind} {b : Button} {append : State → State}
    (hr : s.status = .running) (hpi : (append (newEndpoint k b s)).pi = s.pi) :
    subscribe k b append s ≠ .next s := by
  rw [subscribe, whenRunning_of_running hr]
  split
  · exact complete_ne rfl
  · exact complete_ne hpi

/-- RECV in RUNNING holds only on an empty queue. -/
theorem empty_of_recv_hold {s : State} {e : EpId} (hi : Inv s) (hr : s.status = .running)
    (h : exec (.recv e) s = .next s) :
    ∃ x, e.toNat < s.nextEp ∧ s.ep[e.toNat]? = some x ∧ x.q = [] := by
  by_cases he : e.toNat < s.nextEp
  · obtain ⟨x, hx⟩ := inv_endpoint hi he
    cases hq : x.q with
    | nil => exact ⟨x, he, hx, hq⟩
    | cons p rest =>
      rw [exec_recv_of_cons hr he hx hq] at h
      refine absurd h (answerPayload_ne ?_ e x.kind p)
      rfl
  · rw [exec_recv_of_unknown hr (Nat.not_lt.mp he)] at h
    exact absurd h (complete_ne rfl)

/-- The holds of SETCOLOR, HALT and RECV, and that no other operation holds. -/
theorem hold_cases {i : Instr} {s : State} (hi : Inv s) (h : exec i s = .next s) :
    (s.mbox ≠ .empty ∧ (i = .halt ∨ ∃ r g b, i = .setcolor r g b))
      ∨ ∃ e x, i = .recv e ∧ e.toNat < s.nextEp ∧ s.ep[e.toNat]? = some x ∧ x.q = [] := by
  obtain ⟨ha, hr⟩ := checks_of_hold h
  cases i with
  | setcolor r g b => exact .inl ⟨full_of_request_hold hr h, .inr ⟨r, g, b, rfl⟩⟩
  | halt => exact .inl ⟨full_of_request_hold hr h, .inl rfl⟩
  | recv e =>
    obtain ⟨x, hx⟩ := empty_of_recv_hold hi hr h
    exact .inr ⟨e, x, rfl, hx⟩
  | setbrt l => exact absurd ((whenRunning_of_running hr _).symm.trans h) (complete_ne rfl)
  | subp n =>
    obtain ⟨b, hb⟩ := (buttonOf_isSome_iff n).mp (accepted_subp_iff.mp ha)
    simp only [exec, execSubp, hb] at h
    exact absurd h (subscribe_ne hr rfl)
  | subr n =>
    obtain ⟨b, hb⟩ := (buttonOf_isSome_iff n).mp (accepted_subr_iff.mp ha)
    simp only [exec, execSubr, hb] at h
    exact absurd h (subscribe_ne hr rfl)
  | encb b => exact absurd ((exec_encb ha hr b).symm.trans h) (complete_ne rfl)
  | sample v => exact absurd ((exec_sample ha hr v).symm.trans h) (complete_ne (eval_keeps_pi ..))

/-- Settles O28: `hold_cases` one way, the two holds of the operations the other. -/
theorem twoHoldsOnly : Obligations.TwoHoldsOnly := by
  refine fun i s hi => ⟨fun h => ⟨(checks_of_hold h).2, hold_cases hi h⟩, ?_⟩
  rintro ⟨hr, ⟨hm, rfl | ⟨r, g, b, rfl⟩⟩ | ⟨e, x, rfl, he, hx, hq⟩⟩
  · exact request_holds hr hm 0#8 0#8 0#8
  · exact request_holds hr hm r g b
  · exact exec_recv_of_empty hr he hx hq

/-! ## A held operation at a fault (R215) -/

/-- The state with its first input taken, the rest of the queue being `rest`. -/
def tookInput (s : State) (now : Time) (rest : List Input) : State :=
  { s with now := now, env := rest, steps := s.steps + 1 }

theorem takeInput_of_env {s : State} {x : Input} {rest : List Input} (h : s.env = x :: rest) :
    takeInput s = tookInput s x.now rest := by
  simp [takeInput, nextInput, h, tookInput]

theorem nextInput_of_env {s : State} {x : Input} {rest : List Input} (h : s.env = x :: rest) :
    nextInput s = x := by
  simp [nextInput, h]

/-- A host turn whose operation holds takes its input and nothing else. -/
theorem step_of_hold {s : State} {cw : Word} {i : Instr} {now : Time} {rest : List Input}
    (henv : s.env = ⟨now, .host⟩ :: rest) (hw : s.program[s.pi]? = some cw)
    (hd : decode s.params.bench cw = .ok i)
    (hold : exec i (tookInput s now rest) = .next (tookInput s now rest)) :
    step s = .next (tookInput s now rest) := by
  have ht : (nextInput s).turn = .host := by rw [nextInput_of_env henv]
  rw [step_of_decode ht hw hd, takeInput_of_env henv, hold]

/-- A host turn in FAULTED. -/
theorem step_of_faulted {s : State} {cw : Word} {i : Instr} {now : Time} {rest : List Input}
    (henv : s.env = ⟨now, .host⟩ :: rest) (hw : s.program[s.pi]? = some cw)
    (hd : decode s.params.bench cw = .ok i) (hs : s.status = .faulted) :
    step s = .next (complete (tookInput s now rest) (.err (.notRunning .faulted s.cause))) := by
  have ht : (nextInput s).turn = .host := by rw [nextInput_of_env henv]
  rw [step_of_decode_not_running ht hw hd (by simp [hs]), takeInput_of_env henv, hs]

/-- POLLSTEP's turn with a failed read, in RUNNING. -/
theorem step_of_failed_read {s : State} {now : Time} {rest : List Input}
    (henv : s.env = ⟨now, .poll .fail⟩ :: rest) (hr : s.status = .running) :
    step s = .next { tookInput s now rest with
      status := .faulted, cause := .transport .read
      xfers := s.xfers ++ [⟨s.params.busAddr, [s.params.regIn], 1, .fail⟩] } := by
  have ht : (nextInput s).turn = .poll .fail := by rw [nextInput_of_env henv]
  rw [step_of_poll ht, takeInput_of_env henv, pollStep_fail (s := tookInput s now rest) hr]
  rfl

/-- LEDSTEP's turn with a failed write of a pending request, in RUNNING. -/
theorem step_of_failed_write {s : State} {now : Time} {rest : List Input}
    (henv : s.env = ⟨now, .led .fail⟩ :: rest) (hr : s.status = .running) (hm : s.mbox ≠ .empty) :
    ∃ snap frame log, step s = .next { tookInput s now rest with
      status := .faulted, cause := .transport .write, mbox := .empty
      snap := snap, frame := frame, xfers := log } := by
  have ht : (nextInput s).turn = .led .fail := by rw [nextInput_of_env henv]
  cases hfull : s.mbox with
  | empty => exact absurd hfull hm
  | full r g b =>
    obtain ⟨w, -, -, hw, hs⟩ := ledStep_enabled (s := tookInput s now rest) hr hfull .fail
    rw [step_of_led ht, takeInput_of_env henv, hs]
    generalize w.snap = snap, w.frame = frame at hw
    subst hw
    exact ⟨snap, frame, _, rfl⟩

/-- Settles O30: the hold leaves the operation presented, the fault leaves the program and the
queues alone, and the operation is then refused with the fault's CAUSE. -/
theorem heldOperationSeesTheFault : Obligations.HeldOperationSeesTheFault := by
  refine ⟨fun s cw i n1 n2 n3 rest _ hr hw hd hold henv => ?read,
    fun s cw i n1 n2 n3 rest _ hr hm hw hd hold henv => ?write⟩
  case read =>
    rw [henv] at hold
    have hheld := step_of_hold henv hw hd hold
    have hfault := step_of_failed_read
      (s := tookInput s n1 (⟨n2, .poll .fail⟩ :: ⟨n3, .host⟩ :: rest)) rfl hr
    exact ⟨_, _, _, hheld, hfault, step_of_faulted rfl hw hd rfl,
      rfl, rfl, rfl, rfl, rfl, rfl, rfl, rfl⟩
  case write =>
    rw [henv] at hold
    have hheld := step_of_hold henv hw hd hold
    obtain ⟨snap, frame, log, hfault⟩ := step_of_failed_write
      (s := tookInput s n1 (⟨n2, .led .fail⟩ :: ⟨n3, .host⟩ :: rest)) rfl hr hm
    exact ⟨_, _, _, hheld, hfault, step_of_faulted rfl hw hd rfl,
      rfl, rfl, rfl, rfl, rfl, rfl, rfl, rfl, rfl⟩

end Sys2Proof.Machine
end

section
/-! PROOF. The conditions of 10_state.md R41: what one step does to the table and to the queues, and
what sets and clears each condition. -/

namespace Sys2Proof.Machine

open Sys2Proof.Safety

/-! ## What a step does to the table and to the queues -/

/-- The ways in which a step other than reset touches PRESSED and the endpoints. -/
inductive DetectorStep (s t : State) : Prop where
  | same (hp : t.pressed = s.pressed) (he : t.ep = s.ep)
  /-- SUBP and SUBR add an endpoint with an empty queue (41_detector.md R171, R172). -/
  | created (k : Kind) (b : Button) (hp : t.pressed = s.pressed) (he : t.ep = s.ep ++ [⟨k, b, []⟩])
  /-- RECV takes the oldest payload (41_detector.md R173). -/
  | received (e : EpId) (x : Endpoint) (p : Payload) (rest : List Payload)
    (hrun : hostRuns s (.recv e)) (hp : t.pressed = s.pressed) (hx : s.ep[e.toNat]? = some x)
    (hq : x.q = p :: rest) (he : t.ep = s.ep.set e.toNat { x with q := rest })
  /-- A poll cycle (41_detector.md R165). -/
  | evaluated (v : Byte) (hrun : evaluates s v) (hp : ∀ b : Button, t.pressed[b] = v.getLsbD b)
    (he : ∀ i : Nat, t.ep[i]? = (s.ep[i]?).map (afterEdge (takeInput s) v (nextInput s).now))

theorem effect_detectorStep {s t : State} {i : Instr} (hi : Inv s) (hrun : hostRuns s i)
    (h : Effect (takeInput s) i t) : DetectorStep s t := by
  cases h with
  | subp n b => exact .created .press b rfl rfl
  | subr n b => exact .created .release b rfl rfl
  | recv e x p rest r hr hx hq => exact .received e x p rest hrun rfl hx hq rfl
  | sample v =>
    obtain ⟨hp, -, he, -⟩ := eval_spec v (nextInput s).now (wired_of_inv (inv_takeInput hi))
    exact .evaluated v (.inr hrun) hp he
  | _ => exact .same rfl rfl

theorem move_detectorStep {s t : State} (hi : Inv s) (h : Move s (takeInput s) t)
    (hn : (nextInput s).turn ≠ .reset) : DetectorStep s t := by
  cases h with
  | hostOp cw i _ ht hw hd he => exact effect_detectorStep hi ⟨ht, cw, hw, hd⟩ he
  | pollOk v ht =>
    obtain ⟨hp, -, he, -⟩ := eval_spec v (nextInput s).now (wired_of_inv (inv_takeInput hi))
    exact .evaluated v (.inl ht) hp he
  | init0 | init1 | init2 | initDone => exact .same (by simp) (by simp)
  | reset ht => exact absurd ht hn
  | _ => exact .same rfl rfl

/-- A step that is not the evaluation of a sample leaves the table alone. -/
theorem DetectorStep.pressed_or {s t : State} (h : DetectorStep s t) :
    t.pressed = s.pressed ∨ ∃ v, evaluates s v ∧ ∀ b : Button, t.pressed[b] = v.getLsbD b := by
  cases h with
  | same hp | created _ _ hp | received _ _ _ _ _ hp => exact .inl hp
  | evaluated v hrun hp => exact .inr ⟨v, hrun, hp⟩

/-! ## How much a queue holds -/

/-- Endpoint `i` exists and holds at least `n` payloads. -/
def AtLeast (n : Nat) (s : State) (i : Nat) : Prop := ∃ x, s.ep[i]? = some x ∧ n ≤ x.q.length

theorem epFull_iff (s : State) (i : Nat) : s.epFull i = true ↔ AtLeast s.params.epCap s i := by
  unfold State.epFull AtLeast
  cases s.ep[i]? <;> simp [Endpoint.isFull]

theorem epNonempty_iff (s : State) (i : Nat) : s.epNonempty i = true ↔ AtLeast 1 s i := by
  unfold State.epNonempty AtLeast
  cases s.ep[i]? <;> simp [Nat.one_le_iff_ne_zero, Nat.pos_iff_ne_zero]

/-- An offer takes nothing out of a queue. -/
theorem length_le_afterOffer (cap : Nat) (q : List Payload) (o : Option Payload) :
    q.length ≤ (afterOffer cap q o).length := by
  cases o with
  | none => exact le_rfl
  | some p =>
    rw [afterOffer]
    split
    · rw [List.length_append]
      exact Nat.le_add_right ..
    · exact le_rfl

/-- Only the evaluation of a sample makes a queue longer. -/
theorem DetectorStep.evaluates_of_rise {s t : State} (h : DetectorStep s t) {n i : Nat} (hn : 0 < n)
    (hs : ¬ AtLeast n s i) (ht : AtLeast n t i) : ∃ v, evaluates s v := by
  obtain ⟨y, hy, hlen⟩ := ht
  cases h with
  | same hp he => exact absurd ⟨y, he ▸ hy, hlen⟩ hs
  | created k b hp he =>
    rw [he, List.getElem?_append] at hy
    split at hy
    · exact absurd ⟨y, hy, hlen⟩ hs
    · have hnew : y = ⟨k, b, []⟩ := List.mem_singleton.mp (List.mem_of_getElem? hy)
      subst hnew
      exact absurd hlen (Nat.not_le.mpr hn)
  | received e x p rest hrun hp hx hq he =>
    by_cases hei : e.toNat = i
    · subst hei
      rw [he, List.getElem?_set_self (List.getElem?_eq_some_iff.mp hx).1] at hy
      cases hy
      exact absurd ⟨x, hx, by rw [hq]; exact Nat.le_succ_of_le hlen⟩ hs
    · rw [he, List.getElem?_set_ne hei] at hy
      exact absurd ⟨y, hy, hlen⟩ hs
  | evaluated v hrun => exact ⟨v, hrun⟩

/-- Only RECV of the endpoint makes its queue shorter. -/
theorem DetectorStep.recv_of_fall {s t : State} (h : DetectorStep s t) {n i : Nat}
    (hs : AtLeast n s i) (ht : ¬ AtLeast n t i) : ∃ e, hostRuns s (.recv e) ∧ e.toNat = i := by
  obtain ⟨y, hy, hlen⟩ := hs
  cases h with
  | same hp he => exact absurd ⟨y, he ▸ hy, hlen⟩ ht
  | created k b hp he =>
    have hlt : i < s.ep.length := (List.getElem?_eq_some_iff.mp hy).1
    exact absurd ⟨y, by rw [he, List.getElem?_append_left hlt, hy], hlen⟩ ht
  | received e x p rest hrun hp hx hq he =>
    by_cases hei : e.toNat = i
    · exact ⟨e, hrun, hei⟩
    · exact absurd ⟨y, by rw [he, List.getElem?_set_ne hei, hy], hlen⟩ ht
  | evaluated v hrun hp he =>
    exact absurd ⟨_, by rw [he, hy]; rfl, hlen.trans (length_le_afterOffer ..)⟩ ht

/-! ## RUNNING -/

/-- INIT's success sets `running`, a failed LED write or button read clears it, reset apart. -/
theorem move_isRunning {s t : State} (h : Move s (takeInput s) t)
    (hn : (nextInput s).turn ≠ .reset) :
    t.isRunning = s.isRunning
    ∨ (s.isRunning = false ∧ t.isRunning = true ∧ (nextInput s).turn = .init .ok .ok .ok)
    ∨ (s.isRunning = true ∧ t.isRunning = false
      ∧ ((nextInput s).turn = .led .fail ∨ (nextInput s).turn = .poll .fail)) := by
  cases h with
  | hostOp cw i _ ht hw hd he =>
    have hst : t.status = s.status := effect_keeps_status (s := takeInput s) he
    exact .inl (by rw [State.isRunning, State.isRunning, hst])
  | pollOk v => exact .inl (by simp [State.isRunning])
  | ledFail r g b snap f ht hr =>
    exact .inr (.inr ⟨(isRunning_iff s).mpr hr, rfl, .inl ht⟩)
  | pollFail ht hr => exact .inr (.inr ⟨(isRunning_iff s).mpr hr, rfl, .inr ht⟩)
  | configured _ _ _ _ hr | init0 _ _ _ hr | init1 _ _ hr | init2 _ hr =>
    have hoff : s.isRunning = false := by simp [State.isRunning, hr]
    exact .inl hoff.symm
  | initDone ht hr =>
    have hoff : s.isRunning = false := by simp [State.isRunning, hr]
    exact .inr (.inl ⟨hoff, rfl, ht⟩)
  | reset ht => exact absurd ht hn
  | _ => exact .inl rfl

/-! ## The table of R41 -/

theorem mboxFull_eq_false_iff (s : State) : s.mboxFull = false ↔ s.mbox = .empty := by
  rw [← Bool.not_eq_true, mboxFull_iff, not_not]

/-- A request of a colour is SETCOLOR or HALT. -/
theorem hostRuns_of_request {s : State} {i : Instr} {c : Colour} (hrun : hostRuns s i)
    (hc : requestOf i = some c) : hostRuns s .halt ∨ ∃ r g b, hostRuns s (.setcolor r g b) := by
  rcases requestOf_eq_some hc with rfl | ⟨rfl, -⟩
  · exact .inr ⟨_, _, _, hrun⟩
  · exact .inl hrun

theorem reset_conditions (b : Button) (i : Nat) :
    State.reset.isPressed b = false ∧ State.reset.mboxFull = false
      ∧ State.reset.epFull i = false ∧ State.reset.epNonempty i = false
      ∧ State.reset.isRunning = false :=
  ⟨reset_pressed b, rfl, rfl, rfl, rfl⟩

/-- Settles O38: `DetectorStep` for the buttons and the queues, `move_mbox` and `move_isRunning` for
the other two; a queue is full or nonempty when it holds at least EP_CAP payloads or one. -/
theorem conditionsChangeAsListed : Obligations.ConditionsChangeAsListed := by
  refine ⟨fun s t hi h hn => ?_, reset_conditions⟩
  have hmove := step_next h
  have hdet := move_detectorStep hi hmove hn
  have hcap : t.params.epCap = s.params.epCap := by rw [move_keeps_params hmove]
  refine ⟨fun b => ?pressed, ?mboxSet, ?mboxCleared, fun i => ?queues, ?runningSet, ?runningCleared⟩
  case pressed =>
    unfold State.isPressed
    rcases hdet.pressed_or with hp | ⟨v, hrun, hp⟩
    · rw [hp]
      exact ⟨fun h0 h1 => by simp [h0] at h1, fun h1 h0 => by simp [h0] at h1⟩
    · rw [hp]
      exact ⟨fun _ hv => ⟨v, hrun, hv⟩, fun _ hv => ⟨v, hrun, hv⟩⟩
  case mboxSet =>
    rw [mboxFull_eq_false_iff, mboxFull_iff]
    intro hs ht
    rcases move_mbox hmove hn with hm | ⟨-, -, i, c, hrun, hc, -⟩ | ⟨hm, -⟩
    · exact absurd (hm.trans hs) ht
    · exact hostRuns_of_request hrun hc
    · exact absurd hm ht
  case mboxCleared =>
    rw [mboxFull_eq_false_iff, mboxFull_iff]
    intro hs ht
    rcases move_mbox hmove hn with hm | ⟨hm, -⟩ | ⟨-, hled⟩
    · exact absurd (hm.symm.trans ht) hs
    · exact absurd hm hs
    · exact hled
  case queues =>
    simp only [← Bool.not_eq_true, epFull_iff, epNonempty_iff, hcap]
    exact ⟨hdet.evaluates_of_rise (inv_epCap_pos hi), hdet.recv_of_fall,
      hdet.evaluates_of_rise Nat.one_pos, hdet.recv_of_fall⟩
  case runningSet =>
    intro hs ht
    rcases move_isRunning hmove hn with heq | ⟨-, -, hinit⟩ | ⟨hrun, -⟩
    · simp [heq, hs] at ht
    · exact hinit
    · simp [hs] at hrun
  case runningCleared =>
    intro hs ht
    rcases move_isRunning hmove hn with heq | ⟨hoff, -⟩ | ⟨-, -, hfail⟩
    · simp [heq, hs] at ht
    · simp [hs] at hoff
    · exact hfail

end Sys2Proof.Machine
end

section
/-! PROOF. The two agents commute (60_exceptions.md R211 (c)): each turn is a function of its own
part of the state, which the other's turn leaves alone. -/

namespace Sys2Proof.Machine

open Sys2Proof.Safety

/-! ## A successful LEDSTEP -/

/-- The LED write of a successful LEDSTEP that leaves `frame` in FRAME; none where MBOX is EMPTY. -/
def ledWriteOk (s : State) (frame : List Byte) : List Xfer :=
  if s.mboxFull then [⟨s.params.busAddr, s.params.regOut :: frame, 0, .ok []⟩] else []

/-- All that a successful LEDSTEP writes (40_encoder.md R130). -/
def afterLed (s : State) (snap : Byte) (frame : List Byte) : State :=
  { s with mbox := .empty, snap := snap, frame := frame, xfers := s.xfers ++ ledWriteOk s frame }

theorem ledStep_ok {s : State} (hr : s.status = .running) :
    ∃ snap frame, ledStep .ok s = afterLed s snap frame := by
  cases hm : s.mbox with
  | empty =>
    have hnone : ledWriteOk s s.frame = [] := by simp [ledWriteOk, State.mboxFull, hm]
    refine ⟨s.snap, s.frame, ?_⟩
    rw [ledStep_disabled (.inr hm), afterLed, hnone, List.append_nil, ← hm]
  | full r g b =>
    obtain ⟨w, -, -, hw, hs⟩ := ledStep_enabled hr hm .ok
    rw [hs]
    generalize w.snap = snap, w.frame = frame at hw
    subst hw
    refine ⟨snap, frame, ?_⟩
    simp [memWrite, xfer, afterLed, ledWriteOk, State.mboxFull, hm]

/-- What LEDSTEP reads. -/
structure SameColourPath (u w : State) : Prop where
  snap : u.snap = w.snap
  frame : u.frame = w.frame
  brt : u.brt = w.brt
  mbox : u.mbox = w.mbox
  gamma : u.gamma = w.gamma
  params : u.params = w.params

/-- LEDSTEP makes the same SNAP and FRAME of the same colour path. -/
theorem ledStep_congr {u w : State} (h : SameColourPath u w) (hu : u.status = .running)
    (hw : w.status = .running) (ans : WriteAns) :
    (ledStep ans u).snap = (ledStep ans w).snap
      ∧ (ledStep ans u).frame = (ledStep ans w).frame := by
  obtain ⟨hsnap, hframe, hbrt, hmbox, hgamma, hparams⟩ := h
  cases hm : u.mbox with
  | empty =>
    rw [ledStep_disabled (.inr hm), ledStep_disabled (.inr (hmbox.symm.trans hm))]
    exact ⟨hsnap, hframe⟩
  | full r g b =>
    obtain ⟨x, hx, -, -, hux⟩ := ledStep_enabled hu hm ans
    obtain ⟨y, hy, -, -, hwy⟩ := ledStep_enabled hw (hmbox.symm.trans hm) ans
    have hcommand : ledCommand u r g b = ledCommand w r g b := by
      rw [ledCommand, ledCommand, hbrt, hgamma]
    obtain ⟨hs, hf⟩ := shiftOuts_congr (ledCommand w r g b)
      { u with mbox := .empty, frame := [] } { w with mbox := .empty, frame := [] }
      hsnap rfl hparams
    have hxs : x.snap = y.snap := by rw [hx, hy, hcommand]; exact hs
    have hxf : x.frame = y.frame := by rw [hx, hy, hcommand]; exact hf
    rw [hux, hwy]
    cases ans <;> exact ⟨hxs, hxf⟩

theorem ledStep_ok_of_same {u w : State} {snap : Byte} {frame : List Byte} (h : SameColourPath u w)
    (hu : u.status = .running) (hw : w.status = .running)
    (hled : ledStep .ok w = afterLed w snap frame) : ledStep .ok u = afterLed u snap frame := by
  obtain ⟨snap', frame', hled'⟩ := ledStep_ok hu
  have hsame := ledStep_congr h hu hw .ok
  rw [hled, hled'] at hsame
  obtain ⟨hsnap, hframe⟩ : snap' = snap ∧ frame' = frame := hsame
  rw [hled', hsnap, hframe]

/-! ## A successful POLLSTEP -/

/-- All that a successful POLLSTEP writes (41_detector.md R163, R166). -/
def afterPoll (v : Byte) (s : State) (pressed : Vector Bool 5) (t0 : Vector (Option Time) 5)
    (ep : List Endpoint) : State :=
  { s with
    pressed := pressed, t0 := t0, ep := ep, lastPoll := some s.now
    xfers := s.xfers ++ [⟨s.params.busAddr, [s.params.regIn], 1, .ok [v]⟩] }

theorem pollStep_ok_eq {s : State} (hr : s.status = .running) (v : Byte) :
    ∃ pressed t0 ep, pollStep (.ok v) s = afterPoll v s pressed t0 ep := by
  refine ⟨(eval v s.now s).pressed, (eval v s.now s).t0, (eval v s.now s).ep, ?_⟩
  rw [pollStep_ok hr, eval_frame]
  rfl

/-- POLLSTEP makes the same of the same detector at the same time. -/
theorem pollStep_congr {u w : State} (h : SameDetector u w) (hnow : u.now = w.now)
    (hu : u.status = .running) (hw : w.status = .running) (v : Byte) :
    SameDetector (pollStep (.ok v) u) (pollStep (.ok v) w) := by
  obtain ⟨h1, h2, h3, h4, h5, h6⟩ := eval_congr v u.now h
  rw [pollStep_ok hu, pollStep_ok hw, ← hnow]
  exact ⟨h1, h2, h3, h4, h5, h6⟩

theorem pollStep_ok_of_same {u w : State} {v : Byte} {pressed : Vector Bool 5}
    {t0 : Vector (Option Time) 5} {ep : List Endpoint} (h : SameDetector u w) (hnow : u.now = w.now)
    (hu : u.status = .running) (hw : w.status = .running)
    (hpoll : pollStep (.ok v) w = afterPoll v w pressed t0 ep) :
    pollStep (.ok v) u = afterPoll v u pressed t0 ep := by
  obtain ⟨pressed', t0', ep', hpoll'⟩ := pollStep_ok_eq hu v
  have hsame := pollStep_congr h hnow hu hw v
  rw [hpoll, hpoll'] at hsame
  obtain ⟨hpressed, ht0, -, -, -, hep⟩ := hsame
  have hvalues : pressed' = pressed ∧ t0' = t0 ∧ ep' = ep := ⟨hpressed, ht0, hep⟩
  obtain ⟨rfl, rfl, rfl⟩ := hvalues
  exact hpoll'

/-! ## The two orders -/

theorem step_of_env_led {s : State} {now : Time} {ans : WriteAns} {rest : List Input}
    (h : s.env = ⟨now, .led ans⟩ :: rest) : step s = .next (ledStep ans (tookInput s now rest)) :=
  step_of_env h

theorem step_of_env_poll {s : State} {now : Time} {ans : ReadAns} {rest : List Input}
    (h : s.env = ⟨now, .poll ans⟩ :: rest) : step s = .next (pollStep ans (tookInput s now rest)) :=
  step_of_env h

/-- Settles O44: neither turn writes what the other reads, so each writes the same values in either
order. -/
theorem ledAndPollCommute : Obligations.LedAndPollCommute := by
  intro s n1 n2 v rest hr
  let ledFirst := tookInput s n1 (⟨n2, .poll (.ok v)⟩ :: rest)
  let pollFirst := tookInput s n2 (⟨n1, .led .ok⟩ :: rest)
  obtain ⟨snap, frame, hled⟩ := ledStep_ok (s := ledFirst) hr
  obtain ⟨pressed, t0, ep, hpoll⟩ := pollStep_ok_eq (s := pollFirst) hr v
  have hpollSecond := pollStep_ok_of_same (w := pollFirst)
    (u := tookInput (afterLed ledFirst snap frame) n2 rest)
    ⟨rfl, rfl, rfl, rfl, rfl, rfl⟩ rfl hr hr hpoll
  have hledSecond := ledStep_ok_of_same (w := ledFirst)
    (u := tookInput (afterPoll v pollFirst pressed t0 ep) n1 rest)
    ⟨rfl, rfl, rfl, rfl, rfl, rfl⟩ hr hr hled
  refine ⟨_, _, _, _, (step_of_env_led rfl).trans (congrArg _ hled),
    (step_of_env_poll rfl).trans (congrArg _ hpollSecond),
    (step_of_env_poll rfl).trans (congrArg _ hpoll),
    (step_of_env_led rfl).trans (congrArg _ hledSecond), ?_, rfl, rfl, rfl, rfl⟩
  exact ⟨rfl, rfl, rfl, rfl, rfl, rfl, rfl, rfl, rfl, rfl, rfl, rfl, rfl, rfl, rfl⟩

end Sys2Proof.Machine
end

section
/-! PROOF. Fair endless runs (60_exceptions.md R226): a request waits until its LEDSTEP or until
RUNNING is left, and polling goes on while RUNNING lasts. -/

namespace Sys2Proof.Machine

open Sys2Proof.Safety

/-! ## A request waits -/

/-- Step `m` of the run is the LED agent's, or leaves RUNNING. -/
def EndsWait (run : Nat → State) (input : Nat → Input) (m : Nat) : Prop :=
  (∃ ans, (input m).turn = .led ans) ∨ (run (m + 1)).status ≠ .running

/-- A step that is not the LED agent's and after which RUNNING holds keeps a pending request. -/
theorem step_keeps_request {s t : State} (h : step s = .next t) (hm : s.mbox ≠ .empty)
    (hled : ∀ ans, (nextInput s).turn ≠ .led ans) (ht : t.status = .running) : t.mbox = s.mbox := by
  have hreset : (nextInput s).turn ≠ .reset := by
    intro hreset
    rw [step_of_reset hreset] at h
    cases h
    cases ht
  exact (noRequestIsLost s t h hled hreset).1 hm

/-- Until a step ends the wait, the request stays in MBOX and the block in RUNNING. -/
theorem request_waits {run : Nat → State} {input : Nat → Input} (hrun : EndlessRun run input)
    {n : Nat} (hn : ledEnabled (run n)) {k : Nat} (hk : n ≤ k)
    (hwait : ∀ j, n ≤ j → j < k → ¬ EndsWait run input j) :
    (run k).status = .running ∧ (run k).mbox = (run n).mbox := by
  induction k, hk using Nat.le_induction with
  | base => exact ⟨hn.1, rfl⟩
  | succ k hk ih =>
    obtain ⟨hr, hm⟩ := ih fun j hj hjk => hwait j hj (Nat.lt_succ_of_lt hjk)
    obtain ⟨hled, hr'⟩ := not_or.mp (hwait k hk (Nat.lt_succ_self k))
    rw [not_not] at hr'
    have hkeep := step_keeps_request (hrun k) (by rw [fed_mbox, hm]; exact hn.2)
      (fun ans ht => hled ⟨ans, ht⟩) hr'
    exact ⟨hr', hkeep.trans hm⟩

/-- Under fairness (a) some step ends the wait. -/
theorem wait_ends {run : Nat → State} {input : Nat → Input} (hfair : FairRun run input) {n : Nat}
    (hn : ledEnabled (run n)) : ∃ m, n ≤ m ∧ EndsWait run input m := by
  by_contra hnever
  have hwait : ∀ j, n ≤ j → ¬ EndsWait run input j := fun j hj he => hnever ⟨j, hj, he⟩
  have henabled : ∀ m, n ≤ m → ledEnabled (run m) := by
    intro m hm
    obtain ⟨hr, hmbox⟩ := request_waits hfair.endless hn hm fun j hj _ => hwait j hj
    exact ⟨hr, hmbox ▸ hn.2⟩
  obtain ⟨m, hm, hled⟩ := hfair.led n henabled
  exact hwait m hm (.inl hled)

/-- Part (a): the first step that ends the wait. -/
theorem request_served_or_stopped {run : Nat → State} {input : Nat → Input}
    (hfair : FairRun run input) {n : Nat} (hn : ledEnabled (run n)) :
    ∃ m, n ≤ m
      ∧ (∀ k, n ≤ k → k ≤ m → (run k).status = .running ∧ (run k).mbox = (run n).mbox)
      ∧ (((∃ ans, (input m).turn = .led ans) ∧ (run (m + 1)).mbox = .empty)
        ∨ (run (m + 1)).status ≠ .running) := by
  classical
  have hends := wait_ends hfair hn
  obtain ⟨hm, hend⟩ := Nat.find_spec hends
  have hfirst : ∀ j, n ≤ j → j < Nat.find hends → ¬ EndsWait run input j :=
    fun j hj hlt he => Nat.find_min hends hlt ⟨hj, he⟩
  have hstays : ∀ k, n ≤ k → k ≤ Nat.find hends →
      (run k).status = .running ∧ (run k).mbox = (run n).mbox := fun k hk hkm =>
    request_waits hfair.endless hn hk fun j hj hjk => hfirst j hj (hjk.trans_le hkm)
  refine ⟨Nat.find hends, hm, hstays, ?_⟩
  rcases hend with ⟨ans, hled⟩ | hstop
  · obtain ⟨hr, hmbox⟩ := hstays _ hm le_rfl
    have henabled : ledEnabled (fed run input (Nat.find hends)) := ⟨hr, hmbox ▸ hn.2⟩
    have hserved := ledEnabled_ledTurn (s := fed run input (Nat.find hends)) hled henabled
      (hfair.endless _)
    exact .inl ⟨⟨ans, hled⟩, hserved⟩
  · exact .inr hstop

/-! ## Polling goes on -/

/-- POLLSTEP in RUNNING sets LAST_POLL to its time, or enters FAULTED with (3, READ). -/
theorem pollTurn_outcome {s t : State} {ans : ReadAns} (ht : (nextInput s).turn = .poll ans)
    (hr : s.status = .running) (h : step s = .next t) :
    t.lastPoll = some (nextInput s).now ∨ (t.status = .faulted ∧ t.cause = .transport .read) := by
  rw [step_of_poll ht] at h
  cases h
  cases ans with
  | ok v =>
    rw [pollStep_ok (s := takeInput s) hr]
    exact .inl (eval_lastPoll v _ (takeInput s))
  | fail =>
    rw [pollStep_fail (s := takeInput s) hr]
    exact .inr ⟨rfl, rfl⟩

/-- Settles O51: (a) is the first step that ends the wait; for (b) either RUNNING is left at some
point or fairness (b) gives a POLLSTEP. -/
theorem fairRunsMakeProgress : Obligations.FairRunsMakeProgress := by
  refine fun run input hfair => ⟨fun n hn => request_served_or_stopped hfair hn, fun n => ?_⟩
  by_cases hstay : ∀ m, n ≤ m → pollEnabled (run m)
  · obtain ⟨m, hm, ans, ht⟩ := hfair.poll n hstay
    have hr : (run m).status = .running := hstay m hm
    have hpoll := pollTurn_outcome (s := fed run input m) ht hr (hfair.endless m)
    exact ⟨m, hm, .inr ⟨hr, ⟨ans, ht⟩, hpoll⟩⟩
  · push Not at hstay
    obtain ⟨m, hm, hstop⟩ := hstay
    exact ⟨m, hm, .inl hstop⟩

end Sys2Proof.Machine
end
